-- ==== Sys2Proof/Word.lean ====
section
/-! DEFINITION. The word types of the hardware (00_scope.md R6): 32-bit values and 5-bit register
indices. Arithmetic on `Word` is `BitVec` arithmetic, that is modulo 2^32 (R7). -/

namespace Sys2Proof

/-- XLEN = PCLEN = ILEN = 32 bits (R6): registers, data words, latch values, `pc`, instruction words. -/
abbrev Word := BitVec 32

/-- A 5-bit register index, `r0` to `r31` (R7, R54). -/
abbrev Reg := BitVec 5

end Sys2Proof
end

