-- ==== Sys2Proof/Syntax.lean ====
section
/-! DEFINITION. The instructions: one constructor of `Instr` per row of spec/opcode_table.json, with the
operands as the decoder delivers them (30_encoding.md R56, R57); and the closed enumeration `Op` that
travels in the pipeline latches (10_state.md R24). -/

namespace Sys2Proof

/-- The `op` field of a latch (R24): the eight instructions, `OTHER` for an unrecognized word, `NONE` in
a bubble. -/
inductive Op where
  | ADD | SUB | ADDI | SLL | LW | SW | BEQ | J | OTHER | NONE
  deriving DecidableEq, Repr

/-- The record `(op, rs, rt, rd, imm, dest)` the decoder produces (R54). `dest = 0` means "writes no
register" (R56). -/
structure Decoded where
  op   : Op
  rs   : Reg
  rt   : Reg
  rd   : Reg
  imm  : Word
  dest : Reg
  deriving DecidableEq, Repr

/-- The eight instructions (R2, R68). Register operands stand in the order of the assembler syntax; an
`imm` or `target` is the 32-bit value after extension (R57), so `WellFormed` says which are encodable. -/
inductive Instr where
  /-- `sll rd, rs, imm` (R123): `imm` is the shift amount. -/
  | sll  (rd rs : Reg) (imm : Word)
  /-- `add rd, rs, rt` (R120). -/
  | add  (rd rs rt : Reg)
  /-- `sub rd, rs, rt` (R121). -/
  | sub  (rd rs rt : Reg)
  /-- `j target` (R143): `target` is the absolute byte address. -/
  | j    (target : Word)
  /-- `beq rs, rt, target` (R141): `imm` is the signed word offset from the next instruction. -/
  | beq  (rs rt : Reg) (imm : Word)
  /-- `addi rt, rs, imm` (R122). -/
  | addi (rt rs : Reg) (imm : Word)
  /-- `lw rt, imm(rs)` (R130). -/
  | lw   (rt rs : Reg) (imm : Word)
  /-- `sw rt, imm(rs)` (R131). -/
  | sw   (rt rs : Reg) (imm : Word)
  deriving DecidableEq, Repr

end Sys2Proof
end

