-- ==== Sys2Proof/WellFormed.lean ====
section
/-! DEFINITION. Which instructions have an encoding: the ranges of the immediates (30_encoding.md R57). -/

namespace Sys2Proof

/-- `imm` is the sign extension of a 16-bit field: -32768 .. 32767 (R57). -/
def fitsSigned16 (imm : Word) : Bool := (imm.setWidth 16).signExtend 32 == imm

/-- `imm` is a 5-bit shift amount: 0 .. 31 (R57). -/
def fitsShamt (imm : Word) : Bool := (imm.setWidth 5).setWidth 32 == imm

/-- `target` is a 26-bit index times 4: a multiple of 4 in 0 .. 2^28 - 4 (R57). -/
def fitsJumpTarget (target : Word) : Bool :=
  ((target.extractLsb' 2 26).setWidth 32 <<< 2) == target

/-- The instruction's immediate is one its encoding can carry (R57). -/
def Instr.wellFormed : Instr → Bool
  | .sll _ _ imm  => fitsShamt imm
  | .add _ _ _    => true
  | .sub _ _ _    => true
  | .j target     => fitsJumpTarget target
  | .beq _ _ imm  => fitsSigned16 imm
  | .addi _ _ imm => fitsSigned16 imm
  | .lw _ _ imm   => fitsSigned16 imm
  | .sw _ _ imm   => fitsSigned16 imm

/-- The same as a proposition. -/
abbrev WellFormed (i : Instr) : Prop := i.wellFormed = true

end Sys2Proof
end

