-- ==== Sys2Proof/Decode.lean ====
section
/-! DEFINITION. The Instruction Decoder (30_encoding.md R50 to R60): a total pure function from a 32-bit
word; then the encoder, from the same formats R51 to R53 and opcode map R55. -/

namespace Sys2Proof

/-! ### Fields of a word (R51, R52, R53) -/

/-- `w[25:21]`. -/
def fieldRs (w : Word) : Reg := w.extractLsb' 21 5
/-- `w[20:16]`. -/
def fieldRt (w : Word) : Reg := w.extractLsb' 16 5
/-- `w[15:11]`. -/
def fieldRd (w : Word) : Reg := w.extractLsb' 11 5
/-- `zext_5(w[10:6])`, the shift amount of `sll` (R57). -/
def fieldShamt (w : Word) : Word := (w.extractLsb' 6 5).setWidth 32
/-- `sext_16(w[15:0])`, the immediate of `addi`, `lw`, `sw`, `beq` (R57). -/
def fieldImm16 (w : Word) : Word := (w.extractLsb' 0 16).signExtend 32
/-- `zext_26(w[25:0]) << 2`, the target of `j` (R57); bits 31:28 are zero, not taken from `pc`. -/
def fieldTarget (w : Word) : Word := (w.extractLsb' 0 26).setWidth 32 <<< 2

/-! ### The opcode map (R55) -/

/-- One row of the opcode map: a word `w` selects it when `(w AND mask) = pattern` (R55). -/
structure Row where
  op      : Op
  mask    : Word
  pattern : Word
  deriving DecidableEq, Repr

/-- `(w AND mask) = match` (R55). -/
def Row.selects (r : Row) (w : Word) : Bool := w &&& r.mask == r.pattern

/-- The row of `sll` (R55). -/
def rowSll : Row := ⟨.SLL, 0xFFE0003F, 0x00000000⟩
/-- The row of `add` (R55). -/
def rowAdd : Row := ⟨.ADD, 0xFC0007FF, 0x00000020⟩
/-- The row of `sub` (R55). -/
def rowSub : Row := ⟨.SUB, 0xFC0007FF, 0x00000022⟩
/-- The row of `j` (R55). -/
def rowJ : Row := ⟨.J, 0xFC000000, 0x08000000⟩
/-- The row of `beq` (R55). -/
def rowBeq : Row := ⟨.BEQ, 0xFC000000, 0x10000000⟩
/-- The row of `addi` (R55). -/
def rowAddi : Row := ⟨.ADDI, 0xFC000000, 0x20000000⟩
/-- The row of `lw` (R55). -/
def rowLw : Row := ⟨.LW, 0xFC000000, 0x8C000000⟩
/-- The row of `sw` (R55). -/
def rowSw : Row := ⟨.SW, 0xFC000000, 0xAC000000⟩

/-- The eight rows of R55, in its order. -/
def opcodeMap : List Row := [rowSll, rowAdd, rowSub, rowJ, rowBeq, rowAddi, rowLw, rowSw]

/-! ### The decoder (R54 to R60) -/

/-- Why the decoder yields no instruction: the word selects no row of R55 (R59). This is no fault; the
machine executes such a word as a no-op (R150). -/
inductive DecodeReject where
  | unrecognized (w : Word)
  deriving DecidableEq, Repr

/-- `decode(w)` (R54, R55): total, reads no state, never fails otherwise than by naming an unrecognized
word. For `sll` the source register is `w[20:16]` (R58). -/
def decode (w : Word) : Except DecodeReject Instr :=
  if rowSll.selects w then .ok (.sll (fieldRd w) (fieldRt w) (fieldShamt w))
  else if rowAdd.selects w then .ok (.add (fieldRd w) (fieldRs w) (fieldRt w))
  else if rowSub.selects w then .ok (.sub (fieldRd w) (fieldRs w) (fieldRt w))
  else if rowJ.selects w then .ok (.j (fieldTarget w))
  else if rowBeq.selects w then .ok (.beq (fieldRs w) (fieldRt w) (fieldImm16 w))
  else if rowAddi.selects w then .ok (.addi (fieldRt w) (fieldRs w) (fieldImm16 w))
  else if rowLw.selects w then .ok (.lw (fieldRt w) (fieldRs w) (fieldImm16 w))
  else if rowSw.selects w then .ok (.sw (fieldRt w) (fieldRs w) (fieldImm16 w))
  else .error (.unrecognized w)

/-- The record of an unrecognized word (R59): every field 0. -/
def otherFields : Decoded := ⟨.OTHER, 0, 0, 0, 0, 0⟩

/-- The structured fields of an instruction (R56); a field the shape does not name is 0. -/
def Instr.fields : Instr → Decoded
  | .sll rd rs imm  => ⟨.SLL, rs, 0, rd, imm, rd⟩
  | .add rd rs rt   => ⟨.ADD, rs, rt, rd, 0, rd⟩
  | .sub rd rs rt   => ⟨.SUB, rs, rt, rd, 0, rd⟩
  | .j target       => ⟨.J, 0, 0, 0, target, 0⟩
  | .beq rs rt imm  => ⟨.BEQ, rs, rt, 0, imm, 0⟩
  | .addi rt rs imm => ⟨.ADDI, rs, rt, 0, imm, rt⟩
  | .lw rt rs imm   => ⟨.LW, rs, rt, 0, imm, rt⟩
  | .sw rt rs imm   => ⟨.SW, rs, rt, 0, imm, 0⟩

/-- The record the decoder gives for any word, `OTHER` included (R54, R56, R59). -/
def decodeFields (w : Word) : Decoded :=
  match decode w with
  | .ok i    => i.fields
  | .error _ => otherFields

/-! ### The encoder (R51 to R53, R77) -/

/-- Format R (R51). -/
def formatR (opcode : BitVec 6) (rs rt rd shamt : BitVec 5) (funct : BitVec 6) : Word :=
  opcode ++ rs ++ rt ++ rd ++ shamt ++ funct

/-- Format I (R52). -/
def formatI (opcode : BitVec 6) (rs rt : BitVec 5) (imm16 : BitVec 16) : Word :=
  opcode ++ rs ++ rt ++ imm16

/-- Format J (R53). -/
def formatJ (opcode : BitVec 6) (index : BitVec 26) : Word :=
  opcode ++ index

/-- The word of an instruction, written from the formats R51 to R53 and the opcode and funct numbers of
R55. For an instruction that is not well-formed it drops the bits the field cannot carry. -/
def encode : Instr → Word
  | .sll rd rs imm  => formatR 0x00 0 rs rd (imm.setWidth 5) 0x00
  | .add rd rs rt   => formatR 0x00 rs rt rd 0 0x20
  | .sub rd rs rt   => formatR 0x00 rs rt rd 0 0x22
  | .j target       => formatJ 0x02 (target.extractLsb' 2 26)
  | .beq rs rt imm  => formatI 0x04 rs rt (imm.setWidth 16)
  | .addi rt rs imm => formatI 0x08 rs rt (imm.setWidth 16)
  | .lw rt rs imm   => formatI 0x23 rs rt (imm.setWidth 16)
  | .sw rt rs imm   => formatI 0x2B rs rt (imm.setWidth 16)

/-! ### The opcode table's numbering -/

/-- The instruction read from a word of `nbits` bits numbered as spec/opcode_table.json numbers them; bits
above `nbits` are 0. An instruction is one 32-bit word (R50) and byte order is unobservable (R37). -/
def decodeTableWord (nbits w : Nat) : Option Instr :=
  match decode (BitVec.ofNat 32 (w % 2 ^ nbits)) with
  | .ok i    => some i
  | .error _ => none

end Sys2Proof
end

