-- ==== Sys2Proof/Config.lean ====
section
/-! DEFINITION. The implementation parameters of 00_scope.md R6 that are not plain widths. The spec leaves no
free value, so this file declares none. -/

namespace Sys2Proof

/-- `DMEM_MISALIGNED` (R6, R36, D9): what a `lw` or `sw` does whose address is not a multiple of 4. -/
inductive DmemMisaligned where
  /-- The default: the model gives the step no meaning and marks the run refused. -/
  | refuse
  /-- Each of the 2^32 addresses is a separate 32-bit cell. -/
  | exactKey
  /-- The two low address bits are ignored. -/
  | truncate
  deriving DecidableEq, Repr

namespace Config

/-- The default value of `DMEM_MISALIGNED` (R36). -/
def dmemMisalignedDefault : DmemMisaligned := .refuse

/-- The largest program: `N <= 2^30 - 1` instruction words (R6, D11). -/
def maxProgramWords : Nat := 2 ^ 30 - 1

end Config

end Sys2Proof
end

