-- ==== Sys2Proof/Machine/State.lean ====
section
/-! DEFINITION. The whole state of the hardware (10_state.md R10), as plain data, with its reset values (R26);
and the reasons a step can stop. -/

namespace Sys2Proof.Machine

/-- The hardware has no fault: "No condition in this core is fatal" (R160, R161). So no constructor, and no
step can answer a fault. -/
inductive Fault where
  deriving DecidableEq, Repr

/-- Why the assembler refuses a program text (R66, R70, R71, R74; U11). -/
inductive AsmRefusal where
  /-- A label is bound twice (R66, D21). -/
  | duplicateLabel
  /-- A numeric literal does not fit its field (R74, D20). -/
  | literalOutOfRange
  /-- A label is too far from its `beq` (R70, D20). -/
  | branchTooFar
  /-- A `j` address is not a multiple of 4 in 0 .. 2^28 - 4 (R71, D21). -/
  | badJumpAddress
  deriving DecidableEq, Repr

/-- Why the model gives no next state. -/
inductive Refusal where
  /-- Raised by an arm of `exec` for an instruction not modelled yet; no arm does. Safe. -/
  | notModelled (mnemonic : String)
  /-- Raised by the Memory stage for a present `LW` or `SW` whose address is not a multiple of 4, under
  `DMEM_MISALIGNED = refuse`: "the model gives the step no meaning and marks the run refused" (R36). Safe. -/
  | dmemMisaligned (addr : Word)
  /-- Raised by the host operation `load` when the assembler refuses the text: "no program is loaded and this
  spec says nothing of the state" (R180, U12). No step raises it. Safe. -/
  | loadRefused (why : AsmRefusal)
  /-- Raised by the host operation `load` for more than 2^30 - 1 instruction words (R6, D11). No step raises
  it. Safe. -/
  | programTooLong
  deriving DecidableEq, Repr

/-- The record every pipeline latch holds (R19). -/
structure Latch where
  /-- 1: the latch holds an instruction; 0: bubble. -/
  present     : Bool
  /-- Fetch-time PC of the instruction. -/
  pc          : Word
  /-- The instruction word; meaningful in IF_ID only. -/
  instr       : Word
  /-- Which instruction (R24). -/
  op          : Op
  /-- Index of the first source register. -/
  rs          : Reg
  /-- Index of the second source register, or of the destination for `addi`, `lw`. -/
  rt          : Reg
  /-- The `rd` field for `add`, `sub`, `sll`; 0 otherwise. -/
  rd          : Reg
  /-- The immediate after extension (R57). -/
  imm         : Word
  /-- `x[rs]` as read in Decode. -/
  rsValue     : Word
  /-- `x[rt]` as read in Decode. -/
  rtValue     : Word
  /-- Register to be written in Write-back; 0 = none. -/
  dest        : Reg
  /-- Output of Execute. -/
  aluResult   : Word
  /-- The value a `sw` writes to memory, fixed in Execute. -/
  storeValue  : Word
  /-- The word a `lw` read, fixed in Memory. -/
  loadedValue : Word
  deriving DecidableEq, Repr

/-- `BUBBLE` (R19): `present = 0`, `op = NONE`, every other field zero. -/
def bubble : Latch :=
  { present := false, pc := 0, instr := 0, op := .NONE, rs := 0, rt := 0, rd := 0, imm := 0,
    rsValue := 0, rtValue := 0, dest := 0, aluResult := 0, storeValue := 0, loadedValue := 0 }

/-- Data memory as byte cells: addresses strictly rising, no entry equal to 0, which is what an unlisted
address reads as (R32: every word 0 after reset). The operations are in Machine/Ops.lean. -/
abbrev Mem := List Host.Cell

/-- The state (R10), and the parameters `IMEM`, `N`, `DMEM_MISALIGNED` of the step function (R6), which no step
writes. -/
structure State where
  /-- The register file `x[0..31]` (R11). Read and written through `State.reg`, `State.setReg` only. -/
  x              : Vector Word 32
  /-- The data memory `DMEM` (R32). Read and written through `memRead`, `memWrite` only. -/
  dmem           : Mem
  /-- Address of the next instruction to be fetched (R14). -/
  pc             : Word
  /-- Number of steps since load or reset, modulo 2^64 (R17). -/
  cycleCount     : BitVec 64
  /-- The cycle just completed was a stall cycle (R18). -/
  stallAsserted  : Bool
  /-- The latch between Fetch and Decode (R20). -/
  ifId           : Latch
  /-- The latch between Decode and Execute (R21). -/
  idEx           : Latch
  /-- The latch between Execute and Memory (R22). -/
  exMem          : Latch
  /-- The latch between Memory and Write-back (R23). -/
  memWb          : Latch
  /-- Parameter: the program store `IMEM`; its length is `N` (R31). Set by `load` only. -/
  imem           : List Word
  /-- Parameter: `DMEM_MISALIGNED` (R36). -/
  dmemMisaligned : DmemMisaligned
  deriving DecidableEq, Repr

/-- The machine after reset, before any `load` (R26; N = 0 by R181, D11; the parameter at its default). -/
def State.reset : State :=
  { x := Vector.replicate 32 0
    dmem := []
    pc := 0
    cycleCount := 0
    stallAsserted := false
    ifId := bubble
    idEx := bubble
    exMem := bubble
    memWb := bubble
    imem := []
    dmemMisaligned := Config.dmemMisalignedDefault }

end Sys2Proof.Machine
end

