-- ==== Sys2Proof/Machine/Ops.lean ====
section
/-! DEFINITION. The named operations over registers, `pc`, latches, data memory and program store: the only
readers and writers of `State`'s fields. The hardware takes no exception (60_exceptions.md R160, R164), so
there is no operation that enters or leaves one. -/

namespace Sys2Proof.Machine

/-! ### Registers (R11, R12) -/

/-- `x[r]` (R11): index 0 reads as zero whatever was written. -/
def State.reg (s : State) (r : Reg) : Word :=
  if r = 0 then 0 else s.x[r.toNat]'(r.isLt)

/-- `x[r] <- v` (R12): a write to index 0 is discarded. -/
def State.setReg (s : State) (r : Reg) (v : Word) : State :=
  if r = 0 then s else { s with x := s.x.set r.toNat v r.isLt }

/-! ### Program counter and latches (R14, R15, R20 to R23) -/

/-- `pc <- v` (R15). -/
def State.setPc (s : State) (v : Word) : State := { s with pc := v }
/-- `IF_ID <- l` (R20). -/
def State.setIfId (s : State) (l : Latch) : State := { s with ifId := l }
/-- `ID_EX <- l` (R21). -/
def State.setIdEx (s : State) (l : Latch) : State := { s with idEx := l }
/-- `EX_MEM <- l` (R22). -/
def State.setExMem (s : State) (l : Latch) : State := { s with exMem := l }
/-- `MEM_WB <- l` (R23). -/
def State.setMemWb (s : State) (l : Latch) : State := { s with memWb := l }
/-- `DMEM <- m`. -/
def State.setDmem (s : State) (m : Mem) : State := { s with dmem := m }

/-! ### Memory cells

`DMEM` is an array of 32-bit words (R32, R37). The word cell of a 4-aligned address `a` is held as the four bytes
`a .. a + 3`. Under `exact_key` (R36) an address `a` that is not a multiple of 4 names a cell of its own that
overlaps neither neighbour: it is held in bank `a mod 4`, above the 2^32 bytes of the aligned cells (log 5). -/

/-- The byte at key `a`; an unlisted byte reads as 0 (R32, R33). -/
def Mem.readByte : Mem → Nat → BitVec 8
  | [], _ => 0
  | (k, v) :: m, a => if a = k then v else Mem.readByte m a

/-- Write the byte at key `a`, keeping the canonical form: writing 0 removes the entry. -/
def Mem.writeByte : Mem → Nat → BitVec 8 → Mem
  | [], a, v => if v = 0 then [] else [(a, v)]
  | (k, w) :: m, a, v =>
    if a < k then (if v = 0 then (k, w) :: m else (a, v) :: (k, w) :: m)
    else if a = k then (if v = 0 then m else (a, v) :: m)
    else (k, w) :: Mem.writeByte m a v

/-- The word held in the four bytes from key `k`, lane 0 the least significant byte (log 5: unobservable, R37). -/
def Mem.readWord (m : Mem) (k : Nat) : Word :=
  m.readByte (k + 3) ++ m.readByte (k + 2) ++ m.readByte (k + 1) ++ m.readByte k

/-- Byte lane `i` of a word. -/
def byteLane (v : Word) (i : Nat) : BitVec 8 := v.extractLsb' (8 * i) 8

/-- Write a word into the four bytes from key `k`. -/
def Mem.writeWord (m : Mem) (k : Nat) (v : Word) : Mem :=
  (((m.writeByte k (byteLane v 0)).writeByte (k + 1) (byteLane v 1)).writeByte (k + 2) (byteLane v 2)).writeByte
    (k + 3) (byteLane v 3)

/-- Every key is at least `lo`, keys rise strictly, no byte is 0. -/
def Mem.wfFrom : Nat → Mem → Bool
  | _, [] => true
  | lo, (k, v) :: m => decide (lo ≤ k) && (v != 0) && Mem.wfFrom (k + 1) m

/-- The canonical form of data memory: addresses strictly rising, no entry equal to 0. -/
def Mem.wf (m : Mem) : Bool := m.wfFrom 0

/-! ### The access primitives (R33, R34, R36) -/

/-- `addr[1:0] = 0` (R36). -/
def aligned (addr : Word) : Bool := addr.toNat % 4 == 0

/-- The key of the first byte of the cell named by `addr`: `addr` itself when aligned, else in bank `addr mod 4`. -/
def cellKey (addr : Word) : Nat := 2 ^ 32 * (addr.toNat % 4) + 4 * (addr.toNat / 4)

/-- `addr[31:2] || 00` (R36, `truncate`). -/
def truncateAddr (addr : Word) : Word := (addr.extractLsb' 2 30) ++ (0 : BitVec 2)

/-- Which cell an access to `addr` reaches, or the refusal (R36). Every aligned address exists (R32, R43). -/
def resolveAddr (p : DmemMisaligned) (addr : Word) : Except Refusal Nat :=
  if aligned addr then .ok (cellKey addr)
  else match p with
    | .refuse   => .error (.dmemMisaligned addr)
    | .exactKey => .ok (cellKey addr)
    | .truncate => .ok (cellKey (truncateAddr addr))

/-- `MemRead(addr, 4)` (R33). -/
def memRead (p : DmemMisaligned) (m : Mem) (addr : Word) : Except Refusal Word :=
  match resolveAddr p addr with
  | .ok k    => .ok (m.readWord k)
  | .error r => .error r

/-- `MemWrite(addr, 4, v)` (R34). -/
def memWrite (p : DmemMisaligned) (m : Mem) (addr v : Word) : Except Refusal Mem :=
  match resolveAddr p addr with
  | .ok k    => .ok (m.writeWord k v)
  | .error r => .error r

/-! ### Program store (R31) -/

/-- `pc < 4*N`, unsigned (R106, R107). -/
def State.inProgram (s : State) (pc : Word) : Bool := decide (pc.toNat < 4 * s.imem.length)

/-- `IMEM[pc / 4]` (R107); only read when `pc < 4*N`. -/
def State.fetchWord (s : State) (pc : Word) : Word := s.imem.getD (pc.toNat / 4) 0

/-- What Fetch installs in IF_ID for the instruction `w` at address `pc` (R20, R107). -/
def fetchedLatch (pc w : Word) : Latch := { bubble with present := true, pc := pc, instr := w }

/-- `IMEM` with word number `k` replaced by `w`, lengthened with zero words where it is shorter. -/
def placeWord : List Word → Nat → Word → List Word
  | [], 0, w          => [w]
  | _ :: rest, 0, w   => w :: rest
  | [], k + 1, w      => 0 :: placeWord [] k w
  | v :: rest, k + 1, w => v :: placeWord rest k w

end Sys2Proof.Machine
end

