-- ==== Sys2Proof/Machine/Operands.lean ====
section
/-! DEFINITION. Where operands come from and which are consumed: the ALU (R90), the Forwarding Unit (R92), the
Hazard Detector (R98), the branch target (R100). The hardware's operand forms are a general register, a 16-bit
signed immediate, a 5-bit shift amount, base plus displacement, a word offset and an absolute target (R57, R132);
the decoder has extended every immediate already. -/

namespace Sys2Proof.Machine

/-- `ALU(op, A, B, imm)` (R90): modulo 2^32, no flag, nothing raised. `J` and `NONE` never reach Execute (R24);
they take the default arm. -/
def alu : Op → Word → Word → Word → Word
  | .ADD,  a, b, _   => a + b
  | .SUB,  a, b, _   => a - b
  | .ADDI, a, _, imm => a + imm
  | .SLL,  a, _, imm => a <<< (imm.extractLsb' 0 5)
  | .LW,   a, _, imm => a + imm
  | .SW,   a, _, imm => a + imm
  | .BEQ,   _, _, _  => 0
  | .OTHER, _, _, _  => 0
  | .J,     _, _, _  => 0
  | .NONE,  _, _, _  => 0

/-- What Write-back writes (R85), and what the Forwarding Unit takes from MEM_WB (R92): `loaded_value` for a
`LW`, else `alu_result`. -/
def result (l : Latch) : Word := if l.op = .LW then l.loadedValue else l.aluResult

/-- `Forward(idx, decoded, F1, F2)` (R92), with `F1 = S.EX_MEM`, `F2 = S.MEM_WB`. The test is on `dest` alone, and
the EX_MEM arm gives `alu_result` even for a `LW` (R93). -/
def forward (idx : Reg) (decoded : Word) (f1 f2 : Latch) : Word :=
  if f1.dest ≠ 0 ∧ f1.dest = idx then f1.aluResult
  else if f2.dest ≠ 0 ∧ f2.dest = idx then result f2
  else decoded

/-- `op` consumes its `rs`: every op but `J` (R98). -/
def consumesRs (op : Op) : Bool := op != .J

/-- `op` consumes its `rt`: `ADD`, `SUB`, `BEQ`, `SW` (R98). -/
def consumesRt (op : Op) : Bool := op == .ADD || op == .SUB || op == .BEQ || op == .SW

/-- `Hazard(D, LA)` (R98): the lookahead is a `LW` whose nonzero destination `D` consumes. -/
def hazard (d : Decoded) (la : Latch) : Bool :=
  la.op == .LW && la.dest != 0 &&
    ((consumesRs d.op && d.rs == la.dest) || (consumesRt d.op && d.rt == la.dest))

/-- `fetch_pc + 4 + imm*4`, modulo 2^32 (R100). -/
def branchTarget (fetchPc imm : Word) : Word := fetchPc + 4 + (imm <<< 2)

end Sys2Proof.Machine
end

