-- ==== Sys2Proof/Machine/Flags.lean ====
section
/-! DEFINITION. Flags. The hardware has no condition codes and no arithmetic flag (10_state.md R25); no instruction
computes one. Its one flag is `stall_asserted` (R18), cleared with the counting of the cycle in step 1 of every
cycle (R81) and set by the stall action (R99). -/

namespace Sys2Proof.Machine

/-- Step 1 of every cycle (R81): `cycle_count <- cycle_count + 1 ; stall_asserted <- 0`. -/
def State.tick (s : State) : State := { s with cycleCount := s.cycleCount + 1, stallAsserted := false }

/-- `stall_asserted <- 1` (R99). -/
def State.assertStall (s : State) : State := { s with stallAsserted := true }

end Sys2Proof.Machine
end

