-- ==== Sys2Proof/Machine/Stages.lean ====
section
/-! DEFINITION. The five stages and the clock cycle (40_pipeline.md R80 to R107). Each stage takes the snapshot
latches it reads as arguments; the state it takes and gives is the live one (R82). -/

namespace Sys2Proof.Machine

/-- `WriteBack(L)` (R85): the only writer of registers. -/
def writeBack (l : Latch) (s : State) : State :=
  if l.present then s.setReg l.dest (result l) else s

/-- `Memory(L)` (R86, R87): the only reader and writer of data memory; answers the new MEM_WB and memory. -/
def memoryStage (p : DmemMisaligned) (l : Latch) (m : Mem) : Except Refusal (Latch × Mem) :=
  if l.present then
    if l.op = .LW then
      match memRead p m l.aluResult with
      | .ok v    => .ok ({ l with loadedValue := v }, m)
      | .error r => .error r
    else if l.op = .SW then
      match memWrite p m l.aluResult l.storeValue with
      | .ok m'   => .ok (l, m')
      | .error r => .error r
    else .ok (l, m)
  else .ok (bubble, m)

/-- `Execute(L, F1, F2)` (R88, R89, R91): the new EX_MEM. -/
def execute (l f1 f2 : Latch) : Latch :=
  if l.present then
    { l with
      aluResult  := alu l.op (forward l.rs l.rsValue f1 f2) (forward l.rt l.rtValue f1 f2) l.imm
      storeValue := forward l.rt l.rtValue f1 f2 }
  else bubble

/-! ### Decode (R94 to R104) -/

/-- Decode with no instruction in IF_ID (R94). -/
def decodeEmpty (s : State) : State := s.setIdEx bubble

/-- Stall action (R99). -/
def stallAction (s : State) : State := s.assertStall.setIdEx bubble

/-- Taken-branch action (R100), for a `beq` fetched at `fetchPc`. -/
def takenBranchAction (fetchPc imm : Word) (s : State) : State :=
  ((s.setPc (branchTarget fetchPc imm)).setIfId bubble).setIdEx bubble

/-- Jump action (R101). -/
def jumpAction (target : Word) (s : State) : State :=
  ((s.setPc target).setIfId bubble).setIdEx bubble

/-- What an instruction decoded to `d`, fetched at `fetchPc`, puts into ID_EX (R102): the register values are those
of the register file after Write-back of the same cycle (R97). -/
def issuedLatch (d : Decoded) (fetchPc : Word) (s : State) : Latch :=
  { bubble with
    present := true, pc := fetchPc, op := d.op, rs := d.rs, rt := d.rt, rd := d.rd, imm := d.imm,
    dest := d.dest, rsValue := s.reg d.rs, rtValue := s.reg d.rt }

/-- `Decode(L, LA)`, present case, with `d` the decode of `L.instr` (R96). -/
def decodeStage (d : Decoded) (l la : Latch) (s : State) : State :=
  if hazard d la then stallAction s
  else if d.op = .BEQ ∧ s.reg d.rs = s.reg d.rt then takenBranchAction l.pc d.imm s
  else if d.op = .J then jumpAction d.imm s
  else s.setIdEx (issuedLatch d l.pc s)

/-! ### Fetch (R105 to R107) -/

/-- `Fetch()`: reads `stall_asserted` and `pc` as Decode of the same cycle left them (R84). -/
def fetch (s : State) : State :=
  if s.stallAsserted then s
  else if s.inProgram s.pc then
    (s.setIfId (fetchedLatch s.pc (s.fetchWord s.pc))).setPc (s.pc + 4)
  else s.setIfId bubble

/-! ### The clock cycle (R81) -/

/-- Steps 1 to 3 and 5 of a cycle, with the Memory stage's answer `mw`, `m` of step 4: the state Decode finds. The
snapshot is `s` itself (R82). -/
def beforeDecode (s : State) (mw : Latch) (m : Mem) : State :=
  (((writeBack s.memWb s.tick).setDmem m).setMemWb mw).setExMem (execute s.idEx s.exMem s.memWb)

/-- One clock cycle (R81) with `dec` as the Decode stage's action: Write-back, Memory, Execute, Decode, Fetch on the
snapshot `s`. -/
def cycle (dec : State → State) (s : State) : Host.Outcome State Fault Refusal :=
  match memoryStage s.dmemMisaligned s.exMem s.dmem with
  | .ok (mw, m) => .next (fetch (dec (beforeDecode s mw m)))
  | .error r    => .refused r

/-- The clock cycle in which the instruction with the fields `d` is in Decode: fetched at `S.IF_ID.pc`, with
`S.ID_EX` as the lookahead (R94, R96). -/
def cycleDecoding (d : Decoded) (s : State) : Host.Outcome State Fault Refusal :=
  cycle (decodeStage d s.ifId s.idEx) s

/-- The clock cycle with no instruction in Decode (R94). -/
def cycleEmpty (s : State) : Host.Outcome State Fault Refusal := cycle decodeEmpty s

end Sys2Proof.Machine
end

