-- ==== Sys2Proof/Machine/Arith.lean ====
section
/-! DEFINITION. The arithmetic and shift instructions `sll`, `add`, `sub`, `addi` (41_alu.md R120 to R124). A meaning is
the clock cycle in which the instruction is in Decode (log 3); its sum, difference or shift is made by `alu` when it is
in Execute and written by `writeBack` two cycles later. None traps on overflow, sets a flag or changes `pc`. -/

namespace Sys2Proof.Machine

/-- `sll rd, rs, imm` (R123): fields `rs`, `rd`, shift amount `imm`; latch `rt` is 0 (R58); `dest = rd`. -/
def execSll (rd rs : Reg) (imm : Word) (s : State) : Host.Outcome State Fault Refusal :=
  cycleDecoding { op := .SLL, rs := rs, rt := 0, rd := rd, imm := imm, dest := rd } s

/-- `add rd, rs, rt` (R120): `dest = rd`; hazard test on `rs` and `rt`. -/
def execAdd (rd rs rt : Reg) (s : State) : Host.Outcome State Fault Refusal :=
  cycleDecoding { op := .ADD, rs := rs, rt := rt, rd := rd, imm := 0, dest := rd } s

/-- `sub rd, rs, rt` (R121): `dest = rd`; hazard test on `rs` and `rt`. -/
def execSub (rd rs rt : Reg) (s : State) : Host.Outcome State Fault Refusal :=
  cycleDecoding { op := .SUB, rs := rs, rt := rt, rd := rd, imm := 0, dest := rd } s

/-- `addi rt, rs, imm` (R122): `dest = rt`; hazard test on `rs` only. -/
def execAddi (rt rs : Reg) (imm : Word) (s : State) : Host.Outcome State Fault Refusal :=
  cycleDecoding { op := .ADDI, rs := rs, rt := rt, rd := 0, imm := imm, dest := rt } s

end Sys2Proof.Machine
end

