-- ==== Sys2Proof/Machine/Control.lean ====
section
/-! DEFINITION. The control transfers `beq`, `j` (43_control.md R140 to R144), resolved in Decode. There is no delay
slot: Fetch of the same cycle fetches from the target (R84). -/

namespace Sys2Proof.Machine

/-- `beq rs, rt, target` (R141): stalled on a load-use hazard of `rs` or `rt`; else compares the register file as it
stands after Write-back of this cycle, with nothing forwarded (R142), and redirects `pc` or passes on. -/
def execBeq (rs rt : Reg) (imm : Word) (s : State) : Host.Outcome State Fault Refusal :=
  cycleDecoding { op := .BEQ, rs := rs, rt := rt, rd := 0, imm := imm, dest := 0 } s

/-- `j target` (R143): never stalled; `pc <- target`. -/
def execJ (target : Word) (s : State) : Host.Outcome State Fault Refusal :=
  cycleDecoding { op := .J, rs := 0, rt := 0, rd := 0, imm := target, dest := 0 } s

end Sys2Proof.Machine
end

