-- ==== Sys2Proof/Machine/LoadStore.lean ====
section
/-! DEFINITION. The load and store instructions `lw`, `sw` (42_loadstore.md R130 to R132). A meaning is the clock cycle
in which the instruction is in Decode (log 3); its address is made by `alu` in Execute, its access by `memoryStage` in
the cycle after. -/

namespace Sys2Proof.Machine

/-- `lw rt, imm(rs)` (R130): `dest = rt`; hazard test on the base `rs` only. -/
def execLw (rt rs : Reg) (imm : Word) (s : State) : Host.Outcome State Fault Refusal :=
  cycleDecoding { op := .LW, rs := rs, rt := rt, rd := 0, imm := imm, dest := rt } s

/-- `sw rt, imm(rs)` (R131): no destination; hazard test on `rs` and `rt`. -/
def execSw (rt rs : Reg) (imm : Word) (s : State) : Host.Outcome State Fault Refusal :=
  cycleDecoding { op := .SW, rs := rs, rt := rt, rd := 0, imm := imm, dest := 0 } s

end Sys2Proof.Machine
end

