-- ==== Sys2Proof/Machine/Unrecognized.lean ====
section
/-! DEFINITION. An unrecognized word (44_unrecognized.md R150, R151): a present no-op with `op = OTHER`. It is no row
of the opcode table, so no constructor of `Instr`; `step` runs this meaning for every word the decoder rejects. -/

namespace Sys2Proof.Machine

/-- The clock cycle in which an unrecognized word is in Decode (R59, R150): never stalled, it passes to ID_EX with
every field 0. No trap exists. -/
def execOther (s : State) : Host.Outcome State Fault Refusal := cycleDecoding otherFields s

end Sys2Proof.Machine
end

