-- ==== Sys2Proof/Machine/Step.lean ====
section
/-! DEFINITION. `step`: one clock cycle (40_pipeline.md R80, R81). The instruction a cycle runs is the one Fetch of an
earlier cycle put in IF_ID; it is decoded here (R95). -/

namespace Sys2Proof.Machine

/-- One clock cycle (R81): the cycle of the instruction in IF_ID, of the no-op of an unrecognized word (R150), or of
an empty Decode stage (R94). -/
def step (s : State) : Host.Outcome State Fault Refusal :=
  if s.ifId.present then
    match decode s.ifId.instr with
    | .ok i    => exec i s
    | .error _ => execOther s
  else cycleEmpty s

/-- The state in which the next step runs the instruction with word `w` (numbered as the opcode table numbers bits):
as if `w` were the program's word at the address fetched, and Fetch had just put it in IF_ID (R107). If IF_ID already
holds an instruction, `w` takes its place in IF_ID and in the program store (log 4). -/
def State.withFetchWord (s : State) (nbits w : Nat) : State :=
  let word : Word := BitVec.ofNat 32 (w % 2 ^ nbits)
  if s.ifId.present then
    { s with ifId := { s.ifId with instr := word }, imem := placeWord s.imem (s.ifId.pc.toNat / 4) word }
  else
    { s with ifId := fetchedLatch s.pc word, imem := placeWord s.imem (s.pc.toNat / 4) word, pc := s.pc + 4 }

end Sys2Proof.Machine
end

