-- ==== Sys2Proof/Machine/Assembler.lean ====
section
/-! DEFINITION. The two-pass assembler (30_encoding.md section 5, R65 to R77): from source text to the words of `IMEM`.
It is software around the hardware block (R3); `load` of a text uses it (70_reset_and_hazards.md R180). A text is a
list of characters. -/

namespace Sys2Proof.Machine

/-- Source text, a label, a token. -/
abbrev Text := List Char

/-! ### Lines (R65) -/

/-- White space inside a line: space, tab, carriage return (log 11). -/
def isBlank (c : Char) : Bool := c == ' ' || c == '\t' || c == '\r'

/-- Surrounding white space removed. -/
def trim (t : Text) : Text := ((t.dropWhile isBlank).reverse.dropWhile isBlank).reverse

/-- The newline-separated lines of a text (R65). -/
def splitLines : Text → List Text
  | [] => [[]]
  | c :: cs =>
    if c = '\n' then [] :: splitLines cs
    else match splitLines cs with
      | [] => [[c]]
      | l :: ls => (c :: l) :: ls

/-- One source line: the label it declares, and its instruction text, if any (R65). -/
structure Line where
  label : Option Text
  body  : Option Text
  deriving DecidableEq, Repr

/-- The text as an instruction: `none` where nothing but white space is left. -/
def nonBlank (t : Text) : Option Text := if trim t = [] then none else some (trim t)

/-- A line without its comment (from `#` on) split at its first `:` into label and instruction (R65, R66; log 11). -/
def parseLine (raw : Text) : Line :=
  let t := raw.takeWhile (· != '#')
  if ':' ∈ t then
    { label := some (trim (t.takeWhile (· != ':'))), body := nonBlank ((t.dropWhile (· != ':')).drop 1) }
  else { label := none, body := nonBlank t }

/-! ### Pass one (R66) -/

/-- The label table: label to byte address. -/
abbrev Labels := List (Text × Nat)

/-- The address a label is bound to. -/
def findLabel (ls : Labels) (t : Text) : Option Nat := (ls.find? (·.1 == t)).map (·.2)

/-- Walk the lines with the address counter `addr`: bind labels, collect instructions, 4 bytes each; a label bound
twice refuses the program (R66). -/
def passOne : List Line → Nat → Labels → Except AsmRefusal (Labels × List Text)
  | [], _, ls => .ok (ls, [])
  | l :: rest, addr, ls =>
    let bound : Except AsmRefusal Labels :=
      match l.label with
      | none => .ok ls
      | some t => if (findLabel ls t).isSome then .error .duplicateLabel else .ok ((t, addr) :: ls)
    match bound with
    | .error e => .error e
    | .ok ls' =>
      match l.body with
      | none => passOne rest addr ls'
      | some b =>
        match passOne rest (addr + 4) ls' with
        | .error e => .error e
        | .ok (final, bodies) => .ok (final, b :: bodies)

/-! ### Tokens (R67, R69, R73, R74) -/

/-- Split on white space and commas; no token is empty (R67). -/
def splitTokens : Text → List Text
  | [] => []
  | [c] => if isBlank c || c == ',' then [] else [[c]]
  | c :: d :: cs =>
    if isBlank c || c == ',' then splitTokens (d :: cs)
    else if isBlank d || d == ',' then [c] :: splitTokens (d :: cs)
    else match splitTokens (d :: cs) with
      | [] => [[c]]
      | t :: ts => (c :: t) :: ts

/-- The registered register names and their indices (R73). -/
def registerNames : List (Text × Reg) :=
  [("$zero".toList, 0), ("$at".toList, 1), ("$v0".toList, 2), ("$v1".toList, 3),
   ("$a0".toList, 4), ("$a1".toList, 5), ("$a2".toList, 6), ("$a3".toList, 7),
   ("$t0".toList, 8), ("$t1".toList, 9), ("$t2".toList, 10), ("$t3".toList, 11),
   ("$t4".toList, 12), ("$t5".toList, 13), ("$t6".toList, 14), ("$t7".toList, 15),
   ("$s0".toList, 16), ("$s1".toList, 17), ("$s2".toList, 18), ("$s3".toList, 19),
   ("$s4".toList, 20), ("$s5".toList, 21), ("$s6".toList, 22), ("$s7".toList, 23),
   ("$t8".toList, 24), ("$t9".toList, 25), ("$k0".toList, 26), ("$k1".toList, 27),
   ("$gp".toList, 28), ("$sp".toList, 29), ("$fp".toList, 30), ("$ra".toList, 31)]

/-- A register token; any other token is register 0 (R73). -/
def parseReg (t : Text) : Reg := ((registerNames.find? (·.1 == t)).map (·.2)).getD 0

/-- The value of a decimal digit. -/
def digitValue (c : Char) : Option Nat :=
  if '0'.toNat ≤ c.toNat ∧ c.toNat ≤ '9'.toNat then some (c.toNat - '0'.toNat) else none

/-- Decimal digits after the value `acc`. -/
def parseDigits : Text → Nat → Option Nat
  | [], acc => some acc
  | c :: cs, acc =>
    match digitValue c with
    | some d => parseDigits cs (10 * acc + d)
    | none => none

/-- A decimal integer with an optional leading `-` (R74). -/
def parseInt : Text → Option Int
  | [] => none
  | ['-'] => none
  | '-' :: ds => (parseDigits ds 0).map (fun n => -(n : Int))
  | ds => (parseDigits ds 0).map (fun n => (n : Int))

/-- `imm(rs)` split on the parentheses into offset and base (R69). The spec does not say which tokens are malformed beyond
that; the model's choice (log 12): the offset ends at the first `(`, the base at the first `)` after it, which must be the
token's last character, and an empty base or anything else is malformed (`none`). A second `(` is a character of the base,
so `4(($t1)` has the base `($t1`, which is no register name and so register 0 (R73). -/
def splitParen (t : Text) : Option (Text × Text) :=
  let off := t.takeWhile (· != '(')
  let rest := (t.dropWhile (· != '(')).drop 1
  let base := rest.takeWhile (· != ')')
  if base ≠ [] ∧ rest.dropWhile (· != ')') = [')'] then some (off, base) else none

/-! ### Pass two (R68 to R77) -/

/-- The word of a line that cannot be decoded (R75, D18). -/
def failWord : Word := 0xFFFFFFFF

/-- A 16-bit signed literal (R74): `none` non-numeric, refused when out of range. -/
def immediate16 (t : Text) : Except AsmRefusal (Option Word) :=
  match parseInt t with
  | none => .ok none
  | some n => if -32768 ≤ n ∧ n ≤ 32767 then .ok (some (BitVec.ofInt 32 n)) else .error .literalOutOfRange

/-- An `sll` amount (R74). -/
def shiftAmount (t : Text) : Except AsmRefusal (Option Word) :=
  match parseInt t with
  | none => .ok none
  | some n => if 0 ≤ n ∧ n ≤ 31 then .ok (some (BitVec.ofInt 32 n)) else .error .literalOutOfRange

/-- A `beq` target for a `beq` at byte address `addr` (R70, R72): label first, then a word offset, else 0. -/
def branchOffset (ls : Labels) (addr : Nat) (t : Text) : Except AsmRefusal Word :=
  match findLabel ls t with
  | some l =>
    let n : Int := ((l : Int) - ((addr : Int) + 4)) / 4
    if -32768 ≤ n ∧ n ≤ 32767 then .ok (BitVec.ofInt 32 n) else .error .branchTooFar
  | none =>
    match parseInt t with
    | none => .ok 0
    | some n => if -32768 ≤ n ∧ n ≤ 32767 then .ok (BitVec.ofInt 32 n) else .error .literalOutOfRange

/-- The number a `j` target names (R71, R72): the label's address first, then a byte address, else 0. -/
def jumpNumber (ls : Labels) (t : Text) : Int :=
  match findLabel ls t with
  | some l => (l : Int)
  | none => (parseInt t).getD 0

/-- A `j` target (R71): a multiple of 4 in 0 .. 2^28 - 4, else the program is refused. -/
def jumpAddress (ls : Labels) (t : Text) : Except AsmRefusal Word :=
  if jumpNumber ls t % 4 = 0 ∧ 0 ≤ jumpNumber ls t ∧ jumpNumber ls t ≤ 2 ^ 28 - 4 then
    .ok (BitVec.ofInt 32 (jumpNumber ls t))
  else .error .badJumpAddress

/-- An instruction with an immediate that may be missing (a decode failure, R75) or refused (R74). -/
def withImmediate (imm : Except AsmRefusal (Option Word)) (mk : Word → Instr) : Except AsmRefusal (Option Instr) :=
  match imm with
  | .error e => .error e
  | .ok none => .ok none
  | .ok (some v) => .ok (some (mk v))

/-- An instruction with a target, which always has a value or is refused (R70, R71). -/
def withTarget (t : Except AsmRefusal Word) (mk : Word → Instr) : Except AsmRefusal (Option Instr) :=
  match t with
  | .error e => .error e
  | .ok v => .ok (some (mk v))

/-- The mnemonic of a line's first token (R67: lower case only). -/
def mnemonicOf (t : Text) : Option Op :=
  if t = "add".toList then some .ADD
  else if t = "sub".toList then some .SUB
  else if t = "addi".toList then some .ADDI
  else if t = "sll".toList then some .SLL
  else if t = "lw".toList then some .LW
  else if t = "sw".toList then some .SW
  else if t = "beq".toList then some .BEQ
  else if t = "j".toList then some .J
  else none

/-- The displacement and base of `lw` and `sw`, in either form (R69). -/
def parseAddress : List Text → Option (Text × Text)
  | [a] => splitParen a
  | [rs, imm] => some (imm, rs)
  | _ => none

/-- The operands of a `lw` or `sw` line after the mnemonic (R68, R69). -/
def parseAccess (mk : Reg → Reg → Word → Instr) : List Text → Except AsmRefusal (Option Instr)
  | rt :: rest =>
    match parseAddress rest with
    | some (imm, rs) => withImmediate (immediate16 imm) (mk (parseReg rt) (parseReg rs))
    | none => .ok none
  | [] => .ok none

/-- The operands of a line with the mnemonic `op` (R68); `none` where they do not fit its shape (R75). -/
def parseOperands (ls : Labels) (addr : Nat) (op : Op) (args : List Text) : Except AsmRefusal (Option Instr) :=
  match op, args with
  | .ADD, [rd, rs, rt] => .ok (some (.add (parseReg rd) (parseReg rs) (parseReg rt)))
  | .SUB, [rd, rs, rt] => .ok (some (.sub (parseReg rd) (parseReg rs) (parseReg rt)))
  | .ADDI, [rt, rs, imm] => withImmediate (immediate16 imm) (.addi (parseReg rt) (parseReg rs))
  | .SLL, [rd, rs, imm] => withImmediate (shiftAmount imm) (.sll (parseReg rd) (parseReg rs))
  | .LW, args => parseAccess .lw args
  | .SW, args => parseAccess .sw args
  | .BEQ, [rs, rt, target] => withTarget (branchOffset ls addr target) (.beq (parseReg rs) (parseReg rt))
  | .J, [target] => withTarget (jumpAddress ls target) .j
  | _, _ => .ok none

/-- The instruction on a line at byte address `addr`; `none` is a decode failure (R75). -/
def parseInstr (ls : Labels) (addr : Nat) (body : Text) : Except AsmRefusal (Option Instr) :=
  match splitTokens body with
  | [] => .ok none
  | m :: args =>
    match mnemonicOf m with
    | some op => parseOperands ls addr op args
    | none => .ok none

/-- The word of a line (R77), or `failWord` (R75). -/
def lineWord (ls : Labels) (addr : Nat) (body : Text) : Except AsmRefusal Word :=
  match parseInstr ls addr body with
  | .error e => .error e
  | .ok none => .ok failWord
  | .ok (some i) => .ok (encode i)

/-- Pass two: one word per instruction line (R66, R77). -/
def passTwo (ls : Labels) : Nat → List Text → Except AsmRefusal (List Word)
  | _, [] => .ok []
  | addr, b :: rest =>
    match lineWord ls addr b, passTwo ls (addr + 4) rest with
    | .error e, _ => .error e
    | _, .error e => .error e
    | .ok w, .ok ws => .ok (w :: ws)

/-- The parsed lines of a text. -/
def sourceLines (source : Text) : List Line := (splitLines source).map parseLine

/-- The assembler: the words of a program text, or why it is refused. -/
def assemble (source : Text) : Except AsmRefusal (List Word) :=
  match passOne (sourceLines source) 0 [] with
  | .error e => .error e
  | .ok (ls, bodies) => passTwo ls 0 bodies

end Sys2Proof.Machine
end

