-- ==== Sys2Proof/Machine/HostOps.lean ====
section
/-! DEFINITION. What the host can do between cycles and what it can see (70_reset_and_hazards.md R180 to R186, R195, R196;
the per-stage status, 40_pipeline.md R109). -/

namespace Sys2Proof.Machine

/-- `reset()` (R181): every piece of state at its reset value (R26); the program store, and the parameter
`DMEM_MISALIGNED`, persist. -/
def resetOp (s : State) : State :=
  { State.reset with imem := s.imem, dmemMisaligned := s.dmemMisaligned }

/-- `load` of a list of words (R180): new program store, everything else at its reset value. At most 2^30 - 1 words
(R6). -/
def loadWords (ws : List Word) (s : State) : Host.Outcome State Fault Refusal :=
  if ws.length ≤ Config.maxProgramWords then .next { resetOp s with imem := ws }
  else .refused .programTooLong

/-- `load(source_text)` (R180): assemble, then load the words. After a refused text the spec says nothing of the state
(U12), so there is no next state. -/
def loadText (source : Text) (s : State) : Host.Outcome State Fault Refusal :=
  match assemble source with
  | .ok ws   => loadWords ws s
  | .error e => .refused (.loadRefused e)

/-- The host operations that change the state (R195). The host can do nothing else (R196). -/
inductive HostOp where
  | loadText (source : Text)
  | loadWords (ws : List Word)
  | reset
  | step
  deriving DecidableEq, Repr

/-- One host operation (R195). -/
def hostDo : HostOp → State → Host.Outcome State Fault Refusal
  | .loadText source, s => loadText source s
  | .loadWords ws, s    => loadWords ws s
  | .reset, s           => .next (resetOp s)
  | .step, s            => step s

/-- One rising clock edge (R183): with reset asserted it performs `reset()`, else one step. -/
def clockEdge (rst : Bool) (s : State) : Host.Outcome State Fault Refusal :=
  if rst then .next (resetOp s) else step s

/-- The state is quiescent (R186): `pc >= 4*N` and the four latches are `BUBBLE`. -/
def quiescent (s : State) : Bool :=
  !s.inProgram s.pc && s.ifId == bubble && s.idEx == bubble && s.exMem == bubble && s.memWb == bubble

/-! ### What the host may read (R195) -/

/-- Everything the host may read after any step (R195, D22). -/
structure Observation where
  cycleCount    : BitVec 64
  registers     : List Word
  dmem          : Mem
  pc            : Word
  stallAsserted : Bool
  ifId          : Latch
  idEx          : Latch
  exMem         : Latch
  memWb         : Latch
  deriving DecidableEq, Repr

/-- Reading (R195): no side effect. The registers are `x[0]` to `x[31]` in order. -/
def observe (s : State) : Observation :=
  { cycleCount := s.cycleCount
    registers := (List.range 32).map (fun i => s.reg (BitVec.ofNat 5 i))
    dmem := s.dmem
    pc := s.pc
    stallAsserted := s.stallAsserted
    ifId := s.ifId
    idEx := s.idEx
    exMem := s.exMem
    memWb := s.memWb }

/-- What one stage handled in the cycle just completed (R109). -/
structure StageStatus where
  present : Bool
  pc      : Word
  op      : Op
  deriving DecidableEq, Repr

/-- What Decode did in the cycle just completed (R109). -/
inductive DecodeOutcome where
  | empty | stalled | tookBranch | jumped | passed
  deriving DecidableEq, Repr

/-- The per-stage status as data (R109, D22). -/
structure Status where
  writeBack : StageStatus
  memory    : StageStatus
  execute   : StageStatus
  decode    : StageStatus
  outcome   : DecodeOutcome
  fetch     : StageStatus
  deriving DecidableEq, Repr

/-- The status of a latch past Decode. -/
def latchStatus (l : Latch) : StageStatus := ⟨l.present, l.pc, l.op⟩

/-- The status of IF_ID: the op is that of its word (R59 for an unrecognized one). -/
def ifIdStatus (l : Latch) : StageStatus :=
  ⟨l.present, l.pc, if l.present then (decodeFields l.instr).op else .NONE⟩

/-- What Decode does in the cycle that starts in `s` (R94, R96). -/
def decodeOutcome (s : State) : DecodeOutcome :=
  let d := decodeFields s.ifId.instr
  let committed := writeBack s.memWb s
  if !s.ifId.present then .empty
  else if hazard d s.idEx then .stalled
  else if d.op = .BEQ ∧ committed.reg d.rs = committed.reg d.rt then .tookBranch
  else if d.op = .J then .jumped
  else .passed

/-- The status after the cycle from `s` to `s'` (R109). -/
def status (s s' : State) : Status :=
  { writeBack := latchStatus s.memWb
    memory := latchStatus s.exMem
    execute := latchStatus s.idEx
    decode := ifIdStatus s.ifId
    outcome := decodeOutcome s
    fetch := ifIdStatus s'.ifId }

end Sys2Proof.Machine
end

