-- ==== Sys2Proof/Machine/Sequential.lean ====
section
/-! DEFINITION. The sequential machine of 40_pipeline.md R110, which executes one instruction at a time on the same
registers, data memory and program; and the reading of a pipeline state as a state of it: what the registers, memory
and `pc` are once the instructions past Decode have completed. -/

namespace Sys2Proof.Machine

/-- The state of the sequential machine (R110): `x`, `DMEM`, a sequential `pc`, and the parameters. -/
structure SeqState where
  x              : Vector Word 32
  dmem           : Mem
  pc             : Word
  imem           : List Word
  dmemMisaligned : DmemMisaligned
  deriving DecidableEq, Repr

/-- `x[r]` (R11). -/
def SeqState.reg (a : SeqState) (r : Reg) : Word :=
  if r = 0 then 0 else a.x[r.toNat]'(r.isLt)

/-- `x[r] <- v` (R12). -/
def SeqState.setReg (a : SeqState) (r : Reg) (v : Word) : SeqState :=
  if r = 0 then a else { a with x := a.x.set r.toNat v r.isLt }

/-- The effect of an instruction on `x` and `DMEM`, atomically, with the operands `x[rs]`, `x[rt]` (R110, R120 to R123,
R130, R131). -/
def SeqState.apply (op : Op) (rs rt : Reg) (imm : Word) (dest : Reg) (a : SeqState) : Except Refusal SeqState :=
  let res := alu op (a.reg rs) (a.reg rt) imm
  if op = .LW then
    match memRead a.dmemMisaligned a.dmem res with
    | .ok v    => .ok (a.setReg dest v)
    | .error r => .error r
  else if op = .SW then
    match memWrite a.dmemMisaligned a.dmem res (a.reg rt) with
    | .ok m    => .ok { a with dmem := m }
    | .error r => .error r
  else .ok (a.setReg dest res)

/-- Where the sequential `pc` goes after an instruction (R110). -/
def SeqState.nextPc (d : Decoded) (a : SeqState) : Word :=
  if d.op = .J then d.imm
  else if d.op = .BEQ ∧ a.reg d.rs = a.reg d.rt then branchTarget a.pc d.imm
  else a.pc + 4

/-- The sequential machine has stopped: `pc >= 4*N` (R110). -/
def SeqState.stopped (a : SeqState) : Bool := decide (4 * a.imem.length ≤ a.pc.toNat)

/-- Execute an instruction with the fields `d` atomically (R110): its effect on `x` and `DMEM`, and where `pc` goes. -/
def SeqState.perform (d : Decoded) (a : SeqState) : Except Refusal SeqState :=
  match a.apply d.op d.rs d.rt d.imm d.dest with
  | .ok b    => .ok { b with pc := a.nextPc d }
  | .error r => .error r

/-- One step of the sequential machine (R110): stopped at `pc >= 4*N` it stays as it is, else it executes
`decode(IMEM[pc/4])`. -/
def seqStep (a : SeqState) : Except Refusal SeqState :=
  if a.stopped then .ok a else a.perform (decodeFields (a.imem.getD (a.pc.toNat / 4) 0))

/-- `k` steps of the sequential machine; from its stop on it does not move (R110). -/
def seqRun : Nat → SeqState → Except Refusal SeqState
  | 0, a => .ok a
  | k + 1, a =>
    match seqStep a with
    | .ok b    => seqRun k b
    | .error r => .error r

/-! ### Reading a pipeline state sequentially -/

/-- Complete the instruction in MEM_WB: its register write is all that is left (R85). -/
def completeMemWb (l : Latch) (a : SeqState) : SeqState :=
  if l.present then a.setReg l.dest (result l) else a

/-- Complete the instruction in EX_MEM: its memory access and register write are left (R87, R85). -/
def completeExMem (l : Latch) (a : SeqState) : Except Refusal SeqState :=
  match memoryStage a.dmemMisaligned l a.dmem with
  | .ok (mw, m) => .ok (completeMemWb mw { a with dmem := m })
  | .error r    => .error r

/-- Complete the instruction in ID_EX, all of whose effect is left, with operands in program order. -/
def completeIdEx (l : Latch) (a : SeqState) : Except Refusal SeqState :=
  if l.present then a.apply l.op l.rs l.rt l.imm l.dest else .ok a

/-- The address of the oldest instruction that has not passed Decode. -/
def sequentialPc (s : State) : Word := if s.ifId.present then s.ifId.pc else s.pc

/-- The sequential reading of a pipeline state: `x` and `DMEM` once the instructions past Decode have completed, oldest
first, and the address of the next instruction in program order. -/
def drained (s : State) : Except Refusal SeqState :=
  match completeExMem s.exMem (completeMemWb s.memWb ⟨s.x, s.dmem, sequentialPc s, s.imem, s.dmemMisaligned⟩) with
  | .ok a    => completeIdEx s.idEx a
  | .error r => .error r

/-- In the cycle that starts in `s`, the instruction in IF_ID passes Decode or is resolved there (R96: it is present
and has no hazard). -/
def issues (s : State) : Bool := s.ifId.present && !hazard (decodeFields s.ifId.instr) s.idEx

/-- In the cycle that starts in `s`, a `BEQ` is resolved while `S.ID_EX.dest` or `S.EX_MEM.dest` is a nonzero register it
compares: the comparison that can be stale (R110, R142). -/
def staleBranch (s : State) : Bool :=
  let d := decodeFields s.ifId.instr
  let compares (r : Reg) : Bool := r != 0 && (r == d.rs || r == d.rt)
  issues s && d.op == .BEQ && (compares s.idEx.dest || compares s.exMem.dest)

/-- No cycle among the next `k` from `s` resolves a possibly stale `BEQ` (the condition of R110). -/
def neverStale : Nat → State → Prop
  | 0, _ => True
  | k + 1, s => staleBranch s = false ∧ ∀ t, step s = .next t → neverStale k t

end Sys2Proof.Machine
end

