-- ==== Sys2Proof/Safety.lean ====
section
/-! DEFINITION. What counts as a safe state and a safe run, in the terms claims use: the invariants of 40_pipeline.md R108,
and when a cycle has a next state (R36, R80). -/

namespace Sys2Proof.Machine

/-- The data access of the cycle that starts in `s`, if there is one, is defined (R36): aligned, or `DMEM_MISALIGNED` gives
it a meaning. Under this every cycle has a next state (R80). -/
abbrev accessDefined (s : State) : Prop :=
  s.exMem.present = true → (s.exMem.op = .LW ∨ s.exMem.op = .SW) →
    aligned s.exMem.aluResult = true ∨ s.dmemMisaligned ≠ .refuse

/-- A latch that is not present is exactly `BUBBLE` (R108 item 2). -/
abbrev bubbleClean (l : Latch) : Prop := l.present = false → l = bubble

/-- A present latch's `pc` is a multiple of 4 below `4*N` (R108 item 3). -/
abbrev latchPcOk (s : State) (l : Latch) : Prop :=
  l.present = true → aligned l.pc = true ∧ s.inProgram l.pc = true

/-- A present latch past Decode has one of the eight ops that pass Decode, and a destination only if that op writes a
register (R108 item 4). -/
abbrev latchOpOk (l : Latch) : Prop :=
  l.present = true →
    l.op ∈ [Op.ADD, Op.SUB, Op.ADDI, Op.SLL, Op.LW, Op.SW, Op.BEQ, Op.OTHER] ∧
    (l.dest ≠ 0 → l.op ∈ [Op.ADD, Op.SUB, Op.ADDI, Op.SLL, Op.LW])

/-- The latch `l` consumes register `r` (R108 item 6). -/
abbrev latchConsumes (l : Latch) (r : Reg) : Prop :=
  (l.rs = r ∧ l.op ≠ .J) ∨ (l.rt = r ∧ l.op ∈ [Op.ADD, Op.SUB, Op.BEQ, Op.SW])

/-- Item 1 of R108, of the stored array: the cell of `x[0]` holds 0. -/
abbrev zeroRegOk (s : State) : Prop := s.x[0] = 0

/-- Item 2 of R108. -/
abbrev bubblesOk (s : State) : Prop :=
  bubbleClean s.ifId ∧ bubbleClean s.idEx ∧ bubbleClean s.exMem ∧ bubbleClean s.memWb

/-- Item 3 of R108. -/
abbrev pcsOk (s : State) : Prop :=
  aligned s.pc = true ∧ latchPcOk s s.ifId ∧ latchPcOk s s.idEx ∧ latchPcOk s s.exMem ∧ latchPcOk s s.memWb

/-- Item 4 of R108. -/
abbrev opsOk (s : State) : Prop := latchOpOk s.idEx ∧ latchOpOk s.exMem ∧ latchOpOk s.memWb

/-- Item 5 of R108. -/
abbrev fetchedWordOk (s : State) : Prop :=
  s.ifId.present = true → s.ifId.instr = s.fetchWord s.ifId.pc

/-- Item 6 of R108. -/
abbrev loadUseOk (s : State) : Prop :=
  s.exMem.present = true → s.exMem.op = .LW → s.exMem.dest ≠ 0 → s.idEx.present = true →
    ¬ latchConsumes s.idEx s.exMem.dest

/-- The invariants of R108, items 1 to 6. Item 7 speaks of the order instructions were fetched in, which is no property
of one state. -/
abbrev PipelineInv (s : State) : Prop :=
  zeroRegOk s ∧ bubblesOk s ∧ pcsOk s ∧ opsOk s ∧ fetchedWordOk s ∧ loadUseOk s

/-- The program fits the instruction space: `N <= 2^30 - 1` (R6). -/
abbrev programFits (s : State) : Prop := s.imem.length ≤ Config.maxProgramWords

/-- The pipeline is consistent: `pc` follows the instruction in IF_ID, and ID_EX holds the register values committed when
it was decoded, which nothing has changed since (R83, R97, R107). -/
abbrev Linked (s : State) : Prop :=
  (s.ifId.present = true → s.pc = s.ifId.pc + 4) ∧
  (s.idEx.present = true → s.idEx.rsValue = s.reg s.idEx.rs ∧ s.idEx.rtValue = s.reg s.idEx.rt)

/-! ### Terms for claims about one cycle -/

/-- `k` clock cycles. -/
def steps (k : Nat) (s : State) : Host.Outcome State Fault Refusal := Sys2Proof.core.run k s

/-- The value of register `r` that Decode reads in the cycle that starts in `s`: the register file as written by
Write-back of that cycle, from MEM_WB (R83, R85). -/
def committed (s : State) (r : Reg) : Word :=
  if s.memWb.present = true ∧ s.memWb.dest ≠ 0 ∧ s.memWb.dest = r then
    (if s.memWb.op = .LW then s.memWb.loadedValue else s.memWb.aluResult)
  else s.reg r

/-- A `LW` one slot ahead of Decode will write register `r` (R98). -/
abbrev loadAhead (s : State) (r : Reg) : Prop := s.idEx.op = .LW ∧ s.idEx.dest ≠ 0 ∧ s.idEx.dest = r

/-- Where Decode redirects `pc` to in the cycle that starts in `s`, if it does: a `J`, or a `BEQ` whose two registers are
equal, that has no hazard (R96, R100, R101). -/
def redirect (s : State) : Option Word :=
  let d := decodeFields s.ifId.instr
  if issues s = false then none
  else if d.op = .J then some d.imm
  else if d.op = .BEQ ∧ committed s d.rs = committed s d.rt then some (s.ifId.pc + 4 + d.imm * 4)
  else none

/-- IF_ID and `pc` as Fetch leaves them when it finds `pc = p` and no stall (R106, R107). -/
abbrev fetchedFrom (s t : State) (p : Word) : Prop :=
  (p.toNat < 4 * s.imem.length → t.pc = p + 4 ∧
    t.ifId = { bubble with present := true, pc := p, instr := s.imem.getD (p.toNat / 4) 0 }) ∧
  (4 * s.imem.length ≤ p.toNat → t.pc = p ∧ t.ifId = bubble)

/-- Nothing is in flight past Decode, and nothing is left to fetch. -/
abbrev loneInDecode (s : State) : Prop :=
  s.idEx = bubble ∧ s.exMem = bubble ∧ s.memWb = bubble ∧ 4 * s.imem.length ≤ s.pc.toNat

/-- The state after a lone instruction with the effect `s → e` on registers or memory has left the pipeline: four cycles
later, with IF_ID empty. -/
def afterLone (e : State) : State :=
  { e with cycleCount := e.cycleCount + 4, stallAsserted := false, ifId := bubble }

end Sys2Proof.Machine
end

