-- ==== Sys2Proof/Certificates/Slice0/Obligations.lean ====
section
/-! DEFINITION. The statements for the provers. Each cites the rule of spec/ it formalises; those that rest on a choice of
the model say so. -/

open Sys2Proof Sys2Proof.Machine

/-! ### Encoding (30_encoding.md) -/

/-- R51 to R57, R77: decoding the word of a well-formed instruction gives the instruction back, for all eight rows and
every operand value the encoding admits. The encodings are the spec's decisions D3 to D6 (log 13). -/
def Obligations.DecodeInvertsEncode : Prop :=
  ∀ i : Instr, WellFormed i → decode (encode i) = .ok i

/-- R54 to R57: whatever the decoder accepts is well-formed, and its encoding is the very word decoded: no bit of a
recognized word is ignored. The strict decode is the spec's decision D5 (log 13). -/
def Obligations.EncodeInvertsDecode : Prop :=
  ∀ (w : Word) (i : Instr), decode w = .ok i → WellFormed i ∧ encode i = w

/-- R77: the words of the table, as the shifts and ors it writes. The table is the spec's decisions D3, D4 (log 13). -/
def Obligations.EncodedWordsFollowTable : Prop :=
  ∀ (rs rt rd : Reg) (imm target : Word),
    encode (.add rd rs rt) = rs.setWidth 32 <<< 21 ||| rt.setWidth 32 <<< 16 ||| rd.setWidth 32 <<< 11 ||| 0x20 ∧
    encode (.sub rd rs rt) = rs.setWidth 32 <<< 21 ||| rt.setWidth 32 <<< 16 ||| rd.setWidth 32 <<< 11 ||| 0x22 ∧
    (WellFormed (.sll rd rs imm) →
      encode (.sll rd rs imm) = rs.setWidth 32 <<< 16 ||| rd.setWidth 32 <<< 11 ||| imm <<< 6) ∧
    encode (.addi rt rs imm) =
      0x20000000 ||| rs.setWidth 32 <<< 21 ||| rt.setWidth 32 <<< 16 ||| (imm &&& 0xFFFF) ∧
    encode (.lw rt rs imm) =
      0x8C000000 ||| rs.setWidth 32 <<< 21 ||| rt.setWidth 32 <<< 16 ||| (imm &&& 0xFFFF) ∧
    encode (.sw rt rs imm) =
      0xAC000000 ||| rs.setWidth 32 <<< 21 ||| rt.setWidth 32 <<< 16 ||| (imm &&& 0xFFFF) ∧
    encode (.beq rs rt imm) =
      0x10000000 ||| rs.setWidth 32 <<< 21 ||| rt.setWidth 32 <<< 16 ||| (imm &&& 0xFFFF) ∧
    (WellFormed (.j target) → encode (.j target) = 0x08000000 ||| target / 4)

/-- R54, R55: the eight rows are mutually exclusive, so trying them in any order gives the same record. The
masks are the spec's decision D5 (log 13). -/
def Obligations.OpcodeRowsExclusive : Prop :=
  ∀ (w : Word) (r q : Row), r ∈ opcodeMap → q ∈ opcodeMap → r.selects w = true → q.selects w = true → r = q

/-- R55 to R58: the record of every word that selects a row, field by field from the bits of the word. The
routing is the spec's decisions D3 to D6 (log 13). -/
def Obligations.DecoderRoutesFields : Prop :=
  ∀ w : Word,
    let rs := w.extractLsb 25 21
    let rt := w.extractLsb 20 16
    let rd := w.extractLsb 15 11
    let imm16 := (w.extractLsb 15 0).signExtend 32
    (w &&& 0xFC0007FF = 0x00000020 → decodeFields w = ⟨.ADD, rs, rt, rd, 0, rd⟩) ∧
    (w &&& 0xFC0007FF = 0x00000022 → decodeFields w = ⟨.SUB, rs, rt, rd, 0, rd⟩) ∧
    (w &&& 0xFFE0003F = 0x00000000 → decodeFields w = ⟨.SLL, rt, 0, rd, (w.extractLsb 10 6).setWidth 32, rd⟩) ∧
    (w &&& 0xFC000000 = 0x20000000 → decodeFields w = ⟨.ADDI, rs, rt, 0, imm16, rt⟩) ∧
    (w &&& 0xFC000000 = 0x8C000000 → decodeFields w = ⟨.LW, rs, rt, 0, imm16, rt⟩) ∧
    (w &&& 0xFC000000 = 0xAC000000 → decodeFields w = ⟨.SW, rs, rt, 0, imm16, 0⟩) ∧
    (w &&& 0xFC000000 = 0x10000000 → decodeFields w = ⟨.BEQ, rs, rt, 0, imm16, 0⟩) ∧
    (w &&& 0xFC000000 = 0x08000000 → decodeFields w = ⟨.J, 0, 0, 0, (w.extractLsb 25 0).setWidth 32 <<< 2, 0⟩)

/-- R59, R60: a word decodes to the `OTHER` record, every field 0, exactly when it selects no row; and the decoder then
names it unrecognized. That it is `OTHER` is the spec's decision D5. -/
def Obligations.UnselectedWordsAreOther : Prop :=
  ∀ w : Word,
    ((∀ r ∈ opcodeMap, r.selects w = false) → decodeFields w = ⟨.OTHER, 0, 0, 0, 0, 0⟩ ∧
      decode w = .error (.unrecognized w)) ∧
    (∀ r ∈ opcodeMap, r.selects w = true → (decodeFields w).op = r.op)

/-- 30_encoding.md section 4, worked decodes, one or two words of every family, which the spec derives from R55 and
R56. -/
def Obligations.WorkedDecodes : Prop :=
  decode 0x20080005 = .ok (.addi 8 0 5) ∧ decode 0x2008FFFF = .ok (.addi 8 0 0xFFFFFFFF) ∧
  decode 0x01084820 = .ok (.add 9 8 8) ∧ decode 0x01095022 = .ok (.sub 10 8 9) ∧
  decode 0x00084880 = .ok (.sll 9 8 2) ∧ decode 0x8C080000 = .ok (.lw 8 0 0) ∧
  decode 0xAC080000 = .ok (.sw 8 0 0) ∧ decode 0x1109FFFD = .ok (.beq 8 9 0xFFFFFFFD) ∧
  decode 0x08000003 = .ok (.j 12) ∧ decode 0x0000000C = .error (.unrecognized 0x0000000C)

/-! ### The step (40_pipeline.md) -/

/-- R94 to R96, R150: with a word in IF_ID that decodes to `i`, the step is `exec i`; with any other word, the no-op of an
unrecognized word; with IF_ID a bubble, the cycle with nothing in Decode. Nothing stands around `exec`: it is the whole
cycle. That a meaning is the cycle in which its instruction is in Decode is the model's choice (log 3). -/
def Obligations.StepRunsDecodedInstruction : Prop :=
  ∀ s : State,
    (∀ i, s.ifId.present = true → decode s.ifId.instr = .ok i → step s = exec i s) ∧
    (∀ e, s.ifId.present = true → decode s.ifId.instr = .error e → step s = execOther s) ∧
    (s.ifId.present = false → step s = cycleEmpty s)

/-- R80, R36: every cycle has a next state, except that under `DMEM_MISALIGNED = refuse` a present `LW` or `SW` in
EX_MEM whose address is not a multiple of 4 makes the cycle refused, by name. The parameter is the spec's decision D9;
that the whole cycle is refused is the model's reading (log 2, log 6). -/
def Obligations.CycleDefinedUnlessMisaligned : Prop :=
  ∀ s : State,
    (accessDefined s → ∃ t, step s = .next t) ∧
    (¬ accessDefined s → step s = .refused (.dmemMisaligned s.exMem.aluResult))

/-- R17: the counter is 0 after every host operation but a step, every step adds 1 modulo 2^64 (width and wrap: decision
D16 of the spec), and it influences nothing else. -/
def Obligations.CycleCounterCounts : Prop :=
  (∀ op s t, op ≠ .step → hostDo op s = .next t → t.cycleCount = 0) ∧
  (∀ s t, step s = .next t → t.cycleCount = s.cycleCount + 1) ∧
  (∀ (s t : State) (c : BitVec 64), step s = .next t →
    step { s with cycleCount := c } = .next { t with cycleCount := c + 1 })

/-- R98 (and R18): after a step `stall_asserted` is 1 exactly when the instruction in Decode consumes the nonzero
destination of a `LW` in ID_EX; its value before the step has no effect. -/
def Obligations.StallFlagFollowsHazard : Prop :=
  (∀ (s : State) (b : Bool), step { s with stallAsserted := b } = step s) ∧
  (∀ s t : State, step s = .next t →
    (t.stallAsserted = true ↔
      s.ifId.present = true ∧ s.idEx.op = .LW ∧ s.idEx.dest ≠ 0 ∧
        (((decodeFields s.ifId.instr).op ≠ .J ∧ (decodeFields s.ifId.instr).rs = s.idEx.dest) ∨
         ((decodeFields s.ifId.instr).op ∈ [Op.ADD, Op.SUB, Op.BEQ, Op.SW] ∧
          (decodeFields s.ifId.instr).rt = s.idEx.dest))))

/-- R85: Write-back writes the result of the instruction in MEM_WB (the loaded value of a `LW`, else the ALU result) to
its nonzero destination; every other register keeps its value. No other stage writes a register. -/
def Obligations.WriteBackWritesDestination : Prop :=
  ∀ (s t : State) (r : Reg), step s = .next t →
    t.reg r =
      if s.memWb.present = true ∧ s.memWb.dest ≠ 0 ∧ s.memWb.dest = r then
        (if s.memWb.op = .LW then s.memWb.loadedValue else s.memWb.aluResult)
      else s.reg r

/-- R86: with a bubble in EX_MEM the cycle always has a next state, the new MEM_WB is `BUBBLE`, and data memory is
unchanged. -/
def Obligations.MemoryStagePassesBubble : Prop :=
  ∀ s : State, s.exMem.present = false → ∃ t, step s = .next t ∧ t.memWb = bubble ∧ t.dmem = s.dmem

/-- R87: with an instruction in EX_MEM the new MEM_WB is its copy, a `LW` with the word read, and only a `SW` writes data
memory: its store value at its ALU result. A `loaded_value` of 0 stays 0 in every other op. A `SW` reaches Write-back
with `dest = 0`, as R108 item 4 says it has in EX_MEM. -/
def Obligations.MemoryStageAccesses : Prop :=
  ∀ s t : State, s.exMem.present = true → step s = .next t →
    (s.exMem.op = .LW → t.dmem = s.dmem ∧
      ∃ v, memRead s.dmemMisaligned s.dmem s.exMem.aluResult = .ok v ∧
        t.memWb = { s.exMem with loadedValue := v }) ∧
    (s.exMem.op = .SW → t.memWb = s.exMem ∧
      memWrite s.dmemMisaligned s.dmem s.exMem.aluResult s.exMem.storeValue = .ok t.dmem) ∧
    (s.exMem.op = .SW → opsOk s → t.memWb.present = true ∧ t.memWb.dest = 0) ∧
    (s.exMem.op ≠ .LW → s.exMem.op ≠ .SW → t.memWb = s.exMem ∧ t.dmem = s.dmem) ∧
    (s.exMem.op ≠ .LW → s.exMem.loadedValue = 0 → t.memWb.loadedValue = 0)

/-- R88, R91, R92 (and R89, R90): Execute resolves both operands, EX_MEM over MEM_WB over the decoded value, and the
new EX_MEM is the copy of ID_EX with the ALU result and the resolved `rt` as store value; a bubble gives a bubble. The
ALU arms are those of the table of R90. -/
def Obligations.ExecuteResolvesOperands : Prop :=
  ∀ (s t : State) (a b : Word), step s = .next t →
    (a = if s.exMem.dest ≠ 0 ∧ s.exMem.dest = s.idEx.rs then s.exMem.aluResult
         else if s.memWb.dest ≠ 0 ∧ s.memWb.dest = s.idEx.rs then
           (if s.memWb.op = .LW then s.memWb.loadedValue else s.memWb.aluResult)
         else s.idEx.rsValue) →
    (b = if s.exMem.dest ≠ 0 ∧ s.exMem.dest = s.idEx.rt then s.exMem.aluResult
         else if s.memWb.dest ≠ 0 ∧ s.memWb.dest = s.idEx.rt then
           (if s.memWb.op = .LW then s.memWb.loadedValue else s.memWb.aluResult)
         else s.idEx.rtValue) →
    (s.idEx.present = false → t.exMem = bubble) ∧
    (s.idEx.present = true →
      ∃ res, t.exMem = { s.idEx with aluResult := res, storeValue := b } ∧
        (s.idEx.op = .ADD → res = a + b) ∧ (s.idEx.op = .SUB → res = a - b) ∧
        (s.idEx.op = .ADDI ∨ s.idEx.op = .LW ∨ s.idEx.op = .SW → res = a + s.idEx.imm) ∧
        (s.idEx.op = .SLL → res = a <<< (s.idEx.imm.extractLsb 4 0).toNat) ∧
        (s.idEx.op = .BEQ ∨ s.idEx.op = .OTHER → res = 0))

/-- R7, R90, R124: the ALU results as integers modulo 2^32, signed and unsigned. Width and wrap are the spec's
decisions D1, D7. -/
def Obligations.AluResultsAsIntegers : Prop :=
  ∀ a b imm : Word,
    (alu .ADD a b imm).toInt = (a.toInt + b.toInt).bmod (2 ^ 32) ∧
    (alu .ADD a b imm).toNat = (a.toNat + b.toNat) % 2 ^ 32 ∧
    (alu .SUB a b imm).toInt = (a.toInt - b.toInt).bmod (2 ^ 32) ∧
    (alu .SUB a b imm).toNat = (2 ^ 32 + a.toNat - b.toNat) % 2 ^ 32 ∧
    (alu .ADDI a b imm).toInt = (a.toInt + imm.toInt).bmod (2 ^ 32) ∧
    (alu .SLL a b imm).toNat = (a.toNat * 2 ^ (imm.toNat % 32)) % 2 ^ 32

/-- R12: a write gives the register the value and leaves every other alone, a write to register 0 changes nothing; in a
step at most the destination of the instruction in MEM_WB changes; the destination is `rd` of `add`, `sub`, `sll`, `rt` of
`addi`, `lw`, and none for the others; after any step register 0 is 0. -/
def Obligations.RegisterZeroIsHardwired : Prop :=
  (∀ (s : State) (v : Word), s.setReg 0 v = s ∧ s.reg 0 = 0) ∧
  (∀ (s : State) (r q : Reg) (v : Word), r ≠ 0 →
    (s.setReg r v).reg r = v ∧ (q ≠ r → (s.setReg r v).reg q = s.reg q)) ∧
  (∀ (s t : State) (q : Reg), step s = .next t → t.reg q ≠ s.reg q →
    s.memWb.present = true ∧ s.memWb.dest = q ∧ q ≠ 0) ∧
  (∀ (rd rs rt : Reg) (imm : Word),
    (Instr.add rd rs rt).fields.dest = rd ∧ (Instr.sub rd rs rt).fields.dest = rd ∧
    (Instr.sll rd rs imm).fields.dest = rd ∧ (Instr.addi rt rs imm).fields.dest = rt ∧
    (Instr.lw rt rs imm).fields.dest = rt ∧ (Instr.sw rt rs imm).fields.dest = 0 ∧
    (Instr.beq rs rt imm).fields.dest = 0 ∧ (Instr.j imm).fields.dest = 0 ∧ otherFields.dest = 0) ∧
  (∀ s t : State, step s = .next t → t.reg 0 = 0)

/-- R98, R99, R105: an instruction that consumes the nonzero destination of a `LW` in ID_EX waits: ID_EX becomes a
bubble, the flag is set, and IF_ID and `pc` stay. -/
def Obligations.LoadUseStallsDecode : Prop :=
  ∀ (s : State) (i : Instr), accessDefined s →
    s.idEx.op = .LW → s.idEx.dest ≠ 0 →
    ((i.fields.op ≠ .J ∧ i.fields.rs = s.idEx.dest) ∨
      (i.fields.op ∈ [Op.ADD, Op.SUB, Op.BEQ, Op.SW] ∧ i.fields.rt = s.idEx.dest)) →
    ∃ t, exec i s = .next t ∧ t.stallAsserted = true ∧ t.idEx = bubble ∧ t.ifId = s.ifId ∧ t.pc = s.pc ∧
      (s.ifId.present = true → decode s.ifId.instr = .ok i → step s = .next t)

/-- R84, R105, R106, R107: in a stall cycle Fetch leaves IF_ID and `pc`; else it fetches at the `pc` Decode left, the
redirected one if Decode redirected, and gives a bubble and keeps `pc` at or beyond the end of the program. -/
def Obligations.FetchFollowsDecode : Prop :=
  ∀ s t : State, step s = .next t →
    (t.stallAsserted = true → t.ifId = s.ifId ∧ t.pc = s.pc) ∧
    (t.stallAsserted = false → fetchedFrom s t ((redirect s).getD s.pc))

/-- R94: with a bubble in IF_ID, ID_EX becomes `BUBBLE`, the stall flag stays 0, and Fetch goes on at `pc`. -/
def Obligations.EmptyDecodePassesBubble : Prop :=
  ∀ s t : State, s.ifId.present = false → step s = .next t →
    t.idEx = bubble ∧ t.stallAsserted = false ∧ fetchedFrom s t s.pc

/-- R190, which the spec derives from R98 and R99: in a stall cycle ID_EX becomes a bubble, so the next cycle has no
hazard whatever the instruction, the flag is not set twice in a row, and the stalled instruction passes Decode in the
next cycle. -/
def Obligations.StallLastsOneCycle : Prop :=
  ∀ s t : State, step s = .next t → t.stallAsserted = true →
    t.idEx = bubble ∧ (∀ d, hazard d t.idEx = false) ∧ t.ifId = s.ifId ∧ issues t = true ∧
    ∀ u, step t = .next u → u.stallAsserted = false

/-- R186 (the word quiescent is the spec's decision D17, its being final the spec's derivation): a step from a
quiescent state counts the cycle, clears the stall flag, and changes nothing else; the state stays quiescent. -/
def Obligations.QuiescentStateIsFinal : Prop :=
  ∀ s : State, quiescent s = true →
    step s = .next { s with cycleCount := s.cycleCount + 1, stallAsserted := false } ∧
    quiescent { s with cycleCount := s.cycleCount + 1, stallAsserted := false } = true

/-! ### Reset and load (70_reset_and_hazards.md) -/

/-- R26 (the bubbles and the stall flag: the spec's decision D14; `IMEM` as a field: log 1): after `reset`, and after
a `load` of words, every piece of state has its reset value; `IMEM` is kept by `reset` and set by `load`. -/
def Obligations.ResetValues : Prop :=
  ∀ (s t : State) (ws : List Word),
    (t = resetOp s ∨ t = State.reset ∨ loadWords ws s = .next t →
      (∀ r, t.reg r = 0) ∧ (∀ a, t.dmem.readByte a = 0) ∧ t.pc = 0 ∧ t.cycleCount = 0 ∧ t.stallAsserted = false ∧
      t.ifId = bubble ∧ t.idEx = bubble ∧ t.exMem = bubble ∧ t.memWb = bubble) ∧
    (resetOp s).imem = s.imem ∧ (loadWords ws s = .next t → t.imem = ws)

/-- R182: `reset` twice is `reset` once, with registers 0, memory empty, cycle count 0 and PC 0; the state it leaves
depends on no state before (the step function's parameters, `IMEM` and `DMEM_MISALIGNED`, persist: R181, log 2). -/
def Obligations.ResetIsIdempotent : Prop :=
  (∀ s, resetOp (resetOp s) = resetOp s) ∧
  (∀ s, (∀ r, (resetOp s).reg r = 0) ∧ (resetOp s).dmem = [] ∧ (resetOp s).cycleCount = 0 ∧ (resetOp s).pc = 0) ∧
  (∀ s t : State, s.imem = t.imem → s.dmemMisaligned = t.dmemMisaligned → resetOp s = resetOp t)

/-- From R180, R107 (R185 says it in words; the length bound is the spec's decision D11): after a load of a nonempty
program that fits, the first step fetches word 0 and advances `pc` to 4. -/
def Obligations.FirstStepFetchesWordZero : Prop :=
  ∀ (s : State) (w : Word) (ws : List Word), (w :: ws).length ≤ 2 ^ 30 - 1 →
    ∃ r t, loadWords (w :: ws) s = .next r ∧ step r = .next t ∧ t.pc = 4 ∧
      t.ifId = { bubble with present := true, pc := 0, instr := w }

/-! ### Invariants -/

/-- R108, which the spec derives from its other rules: items 1 to 6 hold after every step from a state where they hold. -/
def Obligations.StepKeepsPipelineInvariants : Prop :=
  ∀ s t : State, PipelineInv s → step s = .next t → PipelineInv t

/-- R108, which the spec derives: items 1 to 6; and the model's own invariants: the link between the latches, the
canonical form of memory and the bound on N hold after reset and after load. -/
def Obligations.ResetAndLoadMeetInvariants : Prop :=
  (PipelineInv State.reset ∧ Linked State.reset ∧ State.reset.dmem.wf = true ∧ programFits State.reset) ∧
  (∀ (s t : State) (ws : List Word), loadWords ws s = .next t →
    PipelineInv t ∧ Linked t ∧ t.dmem.wf = true ∧ programFits t)

/-- The model's own invariant, from R83, R97, R107: after every step `pc` follows the instruction in IF_ID, and ID_EX
holds the committed values of its source registers. -/
def Obligations.StepKeepsLatchLinks : Prop :=
  ∀ s t : State, Linked s → step s = .next t → Linked t

/-- The model's own invariant, of its form of memory (log 5): every step keeps data memory canonical. -/
def Obligations.StepKeepsMemoryCanonical : Prop :=
  ∀ s t : State, s.dmem.wf = true → step s = .next t → t.dmem.wf = true

/-- R42: no step and no instruction changes the program store; the host operation that changes it is a load, which resets
everything else. That the program store is a field of the state is the model's choice (log 1), so is the parameter
`DMEM_MISALIGNED`, which no step and no instruction changes either (log 2), and the meaning of an instruction as the cycle
with it in Decode (log 3). -/
def Obligations.ProgramStoreIsImmutable : Prop :=
  (∀ (s t : State) (i : Instr), step s = .next t ∨ exec i s = .next t →
    t.imem = s.imem ∧ t.dmemMisaligned = s.dmemMisaligned) ∧
  (∀ (op : HostOp) (s t : State), hostDo op s = .next t → t.imem ≠ s.imem →
    ((∃ source, op = .loadText source) ∨ ∃ ws, op = .loadWords ws) ∧ t = { resetOp s with imem := t.imem })

/-! ### Frames -/

/-- R12, R15, R34, R85, R87: in the cycle of any of the eight instructions, every register but the destination of the
instruction in MEM_WB is unchanged; every byte of memory but those of the cell the `SW` in EX_MEM stores to is
unchanged. The cycle as an instruction's meaning is log 3, the byte cells are log 5. -/
def Obligations.InstructionCycleFrame : Prop :=
  ∀ (i : Instr) (s t : State), exec i s = .next t →
    (∀ r : Reg, ¬ (s.memWb.present = true ∧ s.memWb.dest = r) → t.reg r = s.reg r) ∧
    (∀ a k : Nat, s.exMem.present = true → s.exMem.op = .SW →
      resolveAddr s.dmemMisaligned s.exMem.aluResult = .ok k → a < k ∨ k + 4 ≤ a →
      t.dmem.readByte a = s.dmem.readByte a) ∧
    (¬ (s.exMem.present = true ∧ s.exMem.op = .SW) → ∀ a, t.dmem.readByte a = s.dmem.readByte a) ∧
    t.imem = s.imem ∧ t.cycleCount = s.cycleCount + 1

/-- R81, R96: in its Decode cycle an instruction decides only `pc`, IF_ID, ID_EX and the stall flag: registers, memory,
EX_MEM, MEM_WB and the counter become the same whichever instruction is in Decode (log 3). -/
def Obligations.DecodeTouchesFrontEndOnly : Prop :=
  ∀ (i j : Instr) (s t u : State), exec i s = .next t → exec j s = .next u →
    t.x = u.x ∧ t.dmem = u.dmem ∧ t.exMem = u.exMem ∧ t.memWb = u.memWb ∧ t.cycleCount = u.cycleCount ∧
    t.imem = u.imem ∧ t.dmemMisaligned = u.dmemMisaligned

/-! ### Data memory (20_memory.md) -/

/-- R33, R34, R38: an aligned store always completes, an aligned load after it reads the whole word back, every other
aligned word reads as before, memory stays canonical (log 5), and a word never written reads 0. -/
def Obligations.LoadReadsLastStore : Prop :=
  ∀ (p : DmemMisaligned) (m : Mem) (a b v : Word), m.wf = true → aligned a = true → aligned b = true →
    memRead p [] a = .ok 0 ∧
    ∃ m', memWrite p m a v = .ok m' ∧ m'.wf = true ∧ memRead p m' a = .ok v ∧
      (b ≠ a → memRead p m' b = memRead p m b)

/-- R36: the three values of `DMEM_MISALIGNED` at an address that is not a multiple of 4: refused; a cell of its own
that shares nothing with any other address; the access with the two low bits zero. The parameter is the spec's
decision D9 (log 2). -/
def Obligations.MisalignedAccessFollowsParameter : Prop :=
  ∀ (m : Mem) (a b v : Word), m.wf = true → a.toNat % 4 ≠ 0 →
    memRead .refuse m a = .error (.dmemMisaligned a) ∧ memWrite .refuse m a v = .error (.dmemMisaligned a) ∧
    (∃ m', memWrite .exactKey m a v = .ok m' ∧ memRead .exactKey m' a = .ok v ∧
      (b ≠ a → memRead .exactKey m' b = memRead .exactKey m b)) ∧
    memRead .truncate m a = memRead .truncate m (a - BitVec.ofNat 32 (a.toNat % 4)) ∧
    memWrite .truncate m a v = memWrite .truncate m (a - BitVec.ofNat 32 (a.toNat % 4)) v

/-! ### What each instruction does

Operands are the program-order values: those of `drained s`, the registers and memory once the older instructions past
Decode have completed (R110, 41_alu.md head). `steps 3 t` is the state after the instruction's Write-back. That a
meaning is the cycle in which its instruction is in Decode is the model's choice (log 3). -/

/-- R120: with no load-use hazard `add` passes Decode, and its Write-back gives `rd` the wrapped sum; register 0 stays
0. The wrap is the spec's decision D7, the meaning as the Decode cycle log 3. -/
def Obligations.AddWritesSum : Prop :=
  ∀ (s : State) (rd rs rt : Reg), PipelineInv s → Linked s → accessDefined s → ¬ loadAhead s rs → ¬ loadAhead s rt →
    ∃ t, exec (.add rd rs rt) s = .next t ∧ t.stallAsserted = false ∧ t.idEx.op = .ADD ∧ t.idEx.pc = s.ifId.pc ∧
      ∀ a u, drained s = .ok a → steps 3 t = .next u →
        u.reg rd = if rd = 0 then 0 else a.reg rs + a.reg rt

/-- R121: `sub` gives `rd` the wrapped difference (D7, log 3). -/
def Obligations.SubWritesDifference : Prop :=
  ∀ (s : State) (rd rs rt : Reg), PipelineInv s → Linked s → accessDefined s → ¬ loadAhead s rs → ¬ loadAhead s rt →
    ∃ t, exec (.sub rd rs rt) s = .next t ∧ t.stallAsserted = false ∧ t.idEx.op = .SUB ∧ t.idEx.pc = s.ifId.pc ∧
      ∀ a u, drained s = .ok a → steps 3 t = .next u →
        u.reg rd = if rd = 0 then 0 else a.reg rs - a.reg rt

/-- R122: `addi` gives `rt` the wrapped sum with the extended immediate; only `rs` is tested for a hazard (D7, log 3). -/
def Obligations.AddiWritesSum : Prop :=
  ∀ (s : State) (rt rs : Reg) (imm : Word), PipelineInv s → Linked s → accessDefined s → ¬ loadAhead s rs →
    ∃ t, exec (.addi rt rs imm) s = .next t ∧ t.stallAsserted = false ∧ t.idEx.op = .ADDI ∧ t.idEx.pc = s.ifId.pc ∧
      ∀ a u, drained s = .ok a → steps 3 t = .next u →
        u.reg rt = if rt = 0 then 0 else a.reg rs + imm

/-- R123: `sll` gives `rd` the source times 2^imm modulo 2^32; only `rs` is tested for a hazard (D4, D6, log 3). -/
def Obligations.SllWritesShift : Prop :=
  ∀ (s : State) (rd rs : Reg) (imm : Word), WellFormed (.sll rd rs imm) → PipelineInv s → Linked s → accessDefined s →
    ¬ loadAhead s rs →
    ∃ t, exec (.sll rd rs imm) s = .next t ∧ t.stallAsserted = false ∧ t.idEx.op = .SLL ∧ t.idEx.pc = s.ifId.pc ∧
      ∀ a u, drained s = .ok a → steps 3 t = .next u →
        (u.reg rd).toNat = if rd = 0 then 0 else ((a.reg rs).toNat * 2 ^ imm.toNat) % 2 ^ 32

/-- R130, R132: `lw` gives `rt` the word at `rs + imm` of the memory the older stores leave; only `rs` is tested for a
hazard (D9, log 3). -/
def Obligations.LwWritesLoadedWord : Prop :=
  ∀ (s : State) (rt rs : Reg) (imm : Word), PipelineInv s → Linked s → accessDefined s → ¬ loadAhead s rs →
    ∃ t, exec (.lw rt rs imm) s = .next t ∧ t.stallAsserted = false ∧ t.idEx.op = .LW ∧ t.idEx.pc = s.ifId.pc ∧
      ∀ a u, drained s = .ok a → steps 3 t = .next u →
        ∃ v, memRead s.dmemMisaligned a.dmem (a.reg rs + imm) = .ok v ∧ u.reg rt = if rt = 0 then 0 else v

/-- R131, R132, R91: the Memory stage of `sw`, two cycles after its Decode, stores the program-order value of `rt` at
`rs + imm`; the memory is then exactly that of the older stores with this one word written
(D9, log 3). -/
def Obligations.SwStoresRegister : Prop :=
  ∀ (s : State) (rt rs : Reg) (imm : Word), PipelineInv s → Linked s → accessDefined s →
    ¬ loadAhead s rs → ¬ loadAhead s rt →
    ∃ t, exec (.sw rt rs imm) s = .next t ∧ t.stallAsserted = false ∧ t.idEx.op = .SW ∧ t.idEx.dest = 0 ∧
      ∀ a u, drained s = .ok a → steps 2 t = .next u →
        memWrite s.dmemMisaligned a.dmem (a.reg rs + imm) (a.reg rt) = .ok u.dmem

/-- R100 (and R141, R142): with no load-use hazard and equal committed registers `beq` redirects: Fetch of the same cycle
fetches at `fetch_pc + 4 + 4*imm`, and the slot of the `beq` becomes a bubble. -/
def Obligations.BeqTakenRedirects : Prop :=
  ∀ (s : State) (rs rt : Reg) (imm : Word), accessDefined s → ¬ loadAhead s rs → ¬ loadAhead s rt →
    committed s rs = committed s rt →
    ∃ t, exec (.beq rs rt imm) s = .next t ∧ t.stallAsserted = false ∧ t.idEx = bubble ∧
      fetchedFrom s t (s.ifId.pc + 4 + imm * 4) ∧
      (s.ifId.present = true → decode s.ifId.instr = .ok (.beq rs rt imm) → step s = .next t)

/-- R102, R103, R141: with different committed registers `beq` passes Decode, Fetch goes on at `pc`, and Execute gives it
the result 0 and no destination. R103 is the spec's derivation; the meaning as the Decode cycle is log 3. -/
def Obligations.BeqNotTakenPasses : Prop :=
  ∀ (s : State) (rs rt : Reg) (imm : Word), accessDefined s → ¬ loadAhead s rs → ¬ loadAhead s rt →
    committed s rs ≠ committed s rt →
    ∃ t, exec (.beq rs rt imm) s = .next t ∧ t.stallAsserted = false ∧ fetchedFrom s t s.pc ∧
      t.idEx = { bubble with present := true, pc := s.ifId.pc, op := .BEQ, rs := rs, rt := rt, imm := imm, rsValue := committed s rs, rtValue := committed s rt } ∧
      ∀ u, step t = .next u → u.exMem.aluResult = 0 ∧ u.exMem.dest = 0

/-- R101 (and R143): `j` never stalls; Fetch of the same cycle fetches at the target, and its slot becomes a bubble. -/
def Obligations.JumpRedirects : Prop :=
  ∀ (s : State) (target : Word), accessDefined s →
    ∃ t, exec (.j target) s = .next t ∧ t.stallAsserted = false ∧ t.idEx = bubble ∧ fetchedFrom s t target ∧
      (s.ifId.present = true → decode s.ifId.instr = .ok (.j target) → step s = .next t)

/-- R102: what passes Decode, any instruction but a `j` and a taken `beq`, with no hazard, carries its fields and the
committed values of its registers into ID_EX, and Fetch goes on at `pc`; so does an unrecognized word. -/
def Obligations.PassThroughCarriesFields : Prop :=
  (∀ (s : State) (i : Instr), accessDefined s → i.fields.op ≠ .J →
    ¬ (i.fields.op = .BEQ ∧ committed s i.fields.rs = committed s i.fields.rt) → ¬ loadAhead s i.fields.rs →
    (i.fields.op ∈ [Op.ADD, Op.SUB, Op.BEQ, Op.SW] → ¬ loadAhead s i.fields.rt) →
    ∃ t, exec i s = .next t ∧ t.stallAsserted = false ∧ fetchedFrom s t s.pc ∧
      t.idEx = { bubble with present := true, pc := s.ifId.pc, op := i.fields.op, rs := i.fields.rs, rt := i.fields.rt, rd := i.fields.rd, imm := i.fields.imm, dest := i.fields.dest, rsValue := committed s i.fields.rs, rtValue := committed s i.fields.rt } ∧
      (s.ifId.present = true → decode s.ifId.instr = .ok i → step s = .next t)) ∧
  (∀ (s : State) (e : DecodeReject), accessDefined s → s.ifId.present = true → decode s.ifId.instr = .error e →
    ∃ t, step s = .next t ∧ t.stallAsserted = false ∧ fetchedFrom s t s.pc ∧
      t.idEx = { bubble with present := true, pc := s.ifId.pc, op := .OTHER })

/-- R59, R150: an unrecognized word is never stalled, passes Decode as `OTHER` with every field 0, computes 0, stores
nothing and writes no register. That it is a present `OTHER` is the spec's decision D5. -/
def Obligations.UnrecognizedWordIsNoOp : Prop :=
  ∀ s : State, accessDefined s →
    ∃ t, execOther s = .next t ∧ t.stallAsserted = false ∧ fetchedFrom s t s.pc ∧
      t.idEx = { bubble with present := true, pc := s.ifId.pc, op := .OTHER } ∧
      (∀ u, steps 1 t = .next u → u.exMem = { bubble with present := true, pc := s.ifId.pc, op := .OTHER }) ∧
      (∀ u v, steps 1 t = .next u → step u = .next v →
        v.dmem = u.dmem ∧ v.memWb = { bubble with present := true, pc := s.ifId.pc, op := .OTHER }) ∧
      (∀ u v, steps 2 t = .next u → step u = .next v → ∀ r, v.reg r = u.reg r)

/-! ### Whole effect of a lone instruction: nothing else of the state changes -/

/-- R120 to R124, R194: an arithmetic instruction alone in the pipeline, after its four cycles from Decode to Write-back,
has changed its destination register, the counter and IF_ID, and nothing else (D7, log 3; the cycles of R194 are the
spec's derivation). -/
def Obligations.LoneArithmeticEffect : Prop :=
  ∀ (s : State) (rd rs rt : Reg) (imm : Word), loneInDecode s →
    (∃ t, exec (.add rd rs rt) s = .next t ∧
      steps 3 t = .next (afterLone (s.setReg rd (s.reg rs + s.reg rt)))) ∧
    (∃ t, exec (.sub rd rs rt) s = .next t ∧
      steps 3 t = .next (afterLone (s.setReg rd (s.reg rs - s.reg rt)))) ∧
    (∃ t, exec (.addi rt rs imm) s = .next t ∧
      steps 3 t = .next (afterLone (s.setReg rt (s.reg rs + imm)))) ∧
    (∃ t, exec (.sll rd rs imm) s = .next t ∧
      steps 3 t = .next (afterLone (s.setReg rd (s.reg rs <<< (imm.toNat % 32)))))

/-- R130, R131, R36: `lw` alone changes its destination register only, `sw` alone data memory only; where the access is
refused, the machine is refused in the cycle of the Memory stage (D9, log 2, log 6). -/
def Obligations.LoneAccessEffect : Prop :=
  ∀ (s : State) (rt rs : Reg) (imm : Word), loneInDecode s →
    (∀ v, memRead s.dmemMisaligned s.dmem (s.reg rs + imm) = .ok v →
      ∃ t, exec (.lw rt rs imm) s = .next t ∧ steps 3 t = .next (afterLone (s.setReg rt v))) ∧
    (∀ m, memWrite s.dmemMisaligned s.dmem (s.reg rs + imm) (s.reg rt) = .ok m →
      ∃ t, exec (.sw rt rs imm) s = .next t ∧ steps 3 t = .next (afterLone (s.setDmem m))) ∧
    (∀ r, memRead s.dmemMisaligned s.dmem (s.reg rs + imm) = .error r →
      (∃ t, exec (.lw rt rs imm) s = .next t ∧ steps 2 t = .refused r) ∧
      (∃ t, exec (.sw rt rs imm) s = .next t ∧ steps 2 t = .refused r))

/-! ### Hazards and the sequential reading -/

/-- R92, R93, R188: under the invariants, the operand Execute resolves for a register the instruction consumes is its
value once the two older instructions have completed; in particular a `LW`'s address is never consumed. The
spec derives this in R93 and R108. -/
def Obligations.ForwardingGivesProgramOrder : Prop :=
  ∀ (s : State) (a : SeqState), PipelineInv s → Linked s → s.idEx.present = true →
    completeExMem s.exMem (completeMemWb s.memWb ⟨s.x, s.dmem, s.pc, s.imem, s.dmemMisaligned⟩) = .ok a →
    (consumesRs s.idEx.op = true → forward s.idEx.rs s.idEx.rsValue s.exMem s.memWb = a.reg s.idEx.rs) ∧
    (consumesRt s.idEx.op = true → forward s.idEx.rt s.idEx.rtValue s.exMem s.memWb = a.reg s.idEx.rt)

/-- From R97 and R142: what a `beq` does to `pc` and IF_ID does not depend on the instructions in ID_EX and EX_MEM,
whatever results they hold, as long as neither load-use stalls it (log 3). -/
def Obligations.BranchIgnoresInFlightResults : Prop :=
  ∀ (s t u : State) (rs rt : Reg) (imm : Word) (l m : Latch), s.idEx.op ≠ .LW → l.op ≠ .LW →
    exec (.beq rs rt imm) s = .next t → exec (.beq rs rt imm) { s with idEx := l, exMem := m } = .next u →
    t.pc = u.pc ∧ t.ifId = u.ifId

/-- R110, a claim the spec derives, for one cycle: if the cycle resolves no possibly stale `BEQ`, the sequential
reading of the state advances by one instruction of the sequential machine, which has not stopped, when an instruction
passes Decode or is resolved there, and stays when none does. -/
def Obligations.CycleRefinesSequential : Prop :=
  ∀ s t : State, PipelineInv s → Linked s → staleBranch s = false → step s = .next t →
    (drained t = if issues s = true then (drained s).bind seqStep else drained s) ∧
    (∀ a, issues s = true → drained s = .ok a → a.stopped = false)

/-- R110, a claim the spec derives: if a run resolves no possibly stale `BEQ` and reaches a quiescent state, the
sequential machine started from the sequential reading stops, and at its stop, the first state with `pc >= 4*N`, has
the same registers, memory and `pc`. So a program the sequential machine never stops on never makes the pipeline
quiescent. Tier 3: it is the claim R110 asks a model to prove, about runs of any length from every state that meets the
invariants and not from reset alone; its proof is an induction over one-cycle refinements. -/
def Obligations.QuiescentAgreesWithSequential : Prop :=
  ∀ (k : Nat) (s t : State) (a : SeqState), PipelineInv s → Linked s → neverStale k s → drained s = .ok a →
    steps k s = .next t → quiescent t = true →
    ∃ n b, seqRun n a = .ok b ∧ b.stopped = true ∧ b.x = t.x ∧ b.dmem = t.dmem ∧ b.pc = t.pc ∧
      ∀ m c, m < n → seqRun m a = .ok c → c.stopped = false

/-! ### Host interface and assembler -/

/-- R109: the status after a step reports a stall exactly when `stall_asserted` is 1, and for Fetch whether IF_ID holds an
instruction and where it was fetched. The status as data is the spec's decision D22 (log 9). -/
def Obligations.StatusReportsStall : Prop :=
  ∀ s t : State, step s = .next t →
    ((status s t).outcome = .stalled ↔ t.stallAsserted = true) ∧
    ((status s t).outcome = .empty ↔ s.ifId.present = false) ∧
    ((status s t).outcome = .tookBranch ∨ (status s t).outcome = .jumped ↔ (redirect s).isSome = true) ∧
    (status s t).fetch.present = t.ifId.present ∧ (status s t).fetch.pc = t.ifId.pc

/-- R65, R66: an assembled program has one word per instruction line (the lines as the model reads them: log 11). -/
def Obligations.AssemblerEmitsOneWordPerLine : Prop :=
  ∀ (source : Text) (ws : List Word), assemble source = .ok ws →
    ws.length = ((sourceLines source).filter (·.body.isSome)).length

/-- R75, R77: every word of an assembled program is the encoding of a well-formed instruction, or 0xFFFFFFFF, which is
unrecognized. That word is the spec's decision D18. -/
def Obligations.AssembledWordsAreEncodings : Prop :=
  decode 0xFFFFFFFF = .error (.unrecognized 0xFFFFFFFF) ∧
  ∀ (source : Text) (ws : List Word), assemble source = .ok ws →
    ∀ w ∈ ws, w = 0xFFFFFFFF ∨ ∃ i : Instr, WellFormed i ∧ w = encode i

/-- R65, R66: pass one binds a label to 4 times the number of instruction lines before it (the lines as the model
reads them: log 11). -/
def Obligations.LabelsBindNextInstruction : Prop :=
  ∀ (before after : List Line) (l : Line) (name : Text) (ls : Labels) (bodies : List Text),
    l.label = some name → passOne (before ++ l :: after) 0 [] = .ok (ls, bodies) →
    findLabel ls name = some (4 * (before.filter (·.body.isSome)).length)

/-- R70, R71, R100: the offset of a `beq` to a label makes the branch target the label's address, the `j` to a label has
the label's address as target, and a target that is neither label nor number gives 0 (R72).
The offset formula is the spec's derivation in R70. -/
def Obligations.TargetsResolve : Prop :=
  (∀ (ls : Labels) (name : Text) (lab addr : Nat) (off : Word), findLabel ls name = some lab → lab % 4 = 0 →
    addr % 4 = 0 → branchOffset ls addr name = .ok off →
    branchTarget (BitVec.ofNat 32 addr) off = BitVec.ofNat 32 lab) ∧
  (∀ (ls : Labels) (name : Text) (lab : Nat) (v : Word), findLabel ls name = some lab →
    jumpAddress ls name = .ok v → v.toNat = lab) ∧
  (∀ (ls : Labels) (name : Text) (addr : Nat), findLabel ls name = none → parseInt name = none →
    branchOffset ls addr name = .ok 0 ∧ jumpAddress ls name = .ok 0)

/-- R69: both syntaxes of `lw` and `sw`, `imm(rs)` and `rs, imm`, are accepted and give the same instruction, for any
offset without a `(` and any base that is not empty and has no `)`. That a base which itself holds a `(` is accepted is
the model's choice (log 12). -/
def Obligations.AccessFormsAgree : Prop :=
  ∀ (ls : Labels) (addr : Nat) (rt rs imm : Text) (v : Word),
    '(' ∉ imm → ')' ∉ rs → rs ≠ [] → immediate16 imm = .ok (some v) →
    parseOperands ls addr .LW [rt, imm ++ '(' :: rs ++ [')']] = .ok (some (.lw (parseReg rt) (parseReg rs) v)) ∧
    parseOperands ls addr .LW [rt, rs, imm] = .ok (some (.lw (parseReg rt) (parseReg rs) v)) ∧
    parseOperands ls addr .SW [rt, imm ++ '(' :: rs ++ [')']] = .ok (some (.sw (parseReg rt) (parseReg rs) v)) ∧
    parseOperands ls addr .SW [rt, rs, imm] = .ok (some (.sw (parseReg rt) (parseReg rs) v))

/-- R74, R71 (decisions D20, D21): a numeric literal in its range gives its value, one outside refuses the program. The
ranges are -32768 .. 32767 for the immediates of `addi`, `lw`, `sw` and the literal offset of a `beq`, 0 .. 31 for the
amount of an `sll`, the multiples of 4 in 0 .. 2^28 - 4 for the literal address of a `j`. -/
def Obligations.LiteralsAreRangeChecked : Prop :=
  ∀ (t : Text) (n : Int), parseInt t = some n →
    (-32768 ≤ n ∧ n ≤ 32767 → ∃ v : Word, immediate16 t = .ok (some v) ∧ v.toInt = n) ∧
    (n < -32768 ∨ 32767 < n → immediate16 t = .error .literalOutOfRange) ∧
    (0 ≤ n ∧ n ≤ 31 → ∃ v : Word, shiftAmount t = .ok (some v) ∧ v.toInt = n) ∧
    (n < 0 ∨ 31 < n → shiftAmount t = .error .literalOutOfRange) ∧
    ∀ (ls : Labels) (addr : Nat), findLabel ls t = none →
      (-32768 ≤ n ∧ n ≤ 32767 → ∃ v : Word, branchOffset ls addr t = .ok v ∧ v.toInt = n) ∧
      (n < -32768 ∨ 32767 < n → branchOffset ls addr t = .error .literalOutOfRange) ∧
      (n % 4 = 0 ∧ 0 ≤ n ∧ n ≤ 2 ^ 28 - 4 → ∃ v : Word, jumpAddress ls t = .ok v ∧ (v.toNat : Int) = n) ∧
      (n % 4 ≠ 0 ∨ n < 0 ∨ 2 ^ 28 - 4 < n → jumpAddress ls t = .error .badJumpAddress)
end

