-- ==== Sys2Proof/Laws/Assembler.lean ====
section
/-! SUPPORT. Laws of the assembler's parts (Machine/Assembler.lean): what each can answer. -/

namespace Sys2Proof.Machine

/-- An integer in the signed 16-bit range, as a word, is the sign extension of 16 bits (R57). -/
theorem fitsSigned16_ofInt {n : Int} (h : -32768 ≤ n ∧ n ≤ 32767) : fitsSigned16 (BitVec.ofInt 32 n) = true := by
  unfold fitsSigned16
  simp only [beq_iff_eq]
  apply BitVec.eq_of_toInt_eq
  rw [BitVec.toInt_signExtend_of_le (by decide), BitVec.toInt_setWidth, BitVec.toInt_ofInt]
  have e : (((BitVec.ofInt 32 n).toNat : Nat) : Int) = n % 2 ^ 32 := by
    simp only [BitVec.toNat_ofInt]; omega
  rw [e, Int.bmod_def, Int.bmod_def]
  omega

/-- An integer 0 .. 31, as a word, is a shift amount (R57). -/
theorem fitsShamt_ofInt {n : Int} (h : 0 ≤ n ∧ n ≤ 31) : fitsShamt (BitVec.ofInt 32 n) = true := by
  unfold fitsShamt
  simp only [beq_iff_eq]
  apply BitVec.eq_of_toNat_eq
  simp [BitVec.toNat_ofInt]
  omega

/-- A multiple of 4 in 0 .. 2^28 - 4, as a word, is a jump target (R57). -/
theorem fitsJumpTarget_ofInt {n : Int} (h : n % 4 = 0 ∧ 0 ≤ n ∧ n ≤ 2 ^ 28 - 4) :
    fitsJumpTarget (BitVec.ofInt 32 n) = true := by
  unfold fitsJumpTarget
  simp only [beq_iff_eq]
  apply BitVec.eq_of_toNat_eq
  simp [BitVec.toNat_ofInt, Nat.shiftRight_eq_div_pow, Nat.shiftLeft_eq]
  omega

/-- An immediate that was read is in range (R74). -/
theorem immediate16_fits {t : Text} {v : Word} (h : immediate16 t = .ok (some v)) : fitsSigned16 v = true := by
  unfold immediate16 at h
  split at h
  · cases h
  · split at h
    · rename_i hr; cases h; exact fitsSigned16_ofInt hr
    · cases h

/-- A shift amount that was read is in range (R74). -/
theorem shiftAmount_fits {t : Text} {v : Word} (h : shiftAmount t = .ok (some v)) : fitsShamt v = true := by
  unfold shiftAmount at h
  split at h
  · cases h
  · split at h
    · rename_i hr; cases h; exact fitsShamt_ofInt hr
    · cases h

/-- A branch offset that was resolved is in range (R70). -/
theorem branchOffset_fits {ls : Labels} {addr : Nat} {t : Text} {v : Word} (h : branchOffset ls addr t = .ok v) :
    fitsSigned16 v = true := by
  unfold branchOffset at h
  split at h
  · simp only at h
    split at h
    · rename_i hr; cases h; exact fitsSigned16_ofInt hr
    · cases h
  · split at h
    · cases h; decide
    · split at h
      · rename_i hr; cases h; exact fitsSigned16_ofInt hr
      · cases h

/-- A jump address that was resolved is in range (R71). -/
theorem jumpAddress_fits {ls : Labels} {t : Text} {v : Word} (h : jumpAddress ls t = .ok v) :
    fitsJumpTarget v = true := by
  unfold jumpAddress at h
  split at h
  · rename_i hr; cases h; exact fitsJumpTarget_ofInt hr
  · cases h

/-- An instruction made with an immediate has one that was read. -/
theorem withImmediate_some {imm : Except AsmRefusal (Option Word)} {mk : Word → Instr} {i : Instr}
    (h : withImmediate imm mk = .ok (some i)) : ∃ v, imm = .ok (some v) ∧ i = mk v := by
  unfold withImmediate at h
  split at h
  · cases h
  · cases h
  · cases h; exact ⟨_, rfl, rfl⟩

/-- An instruction made with a target has one that was resolved. -/
theorem withTarget_some {t : Except AsmRefusal Word} {mk : Word → Instr} {i : Instr}
    (h : withTarget t mk = .ok (some i)) : ∃ v, t = .ok v ∧ i = mk v := by
  unfold withTarget at h
  split at h
  · cases h
  · cases h; exact ⟨_, rfl, rfl⟩

/-- Looking up a label after one more is bound. -/
theorem findLabel_cons (t n : Text) (a : Nat) (ls : Labels) :
    findLabel ((t, a) :: ls) n = if t = n then some a else findLabel ls n := by
  unfold findLabel
  by_cases h : t = n <;> simp [h]

end Sys2Proof.Machine
end

