-- ==== Sys2Proof/Laws/Decode.lean ====
section
/-! SUPPORT. The opcode map in terms of a word's fields (30_encoding.md R51 to R55), and the fields of an encoded word: what
proofs about the decoder cite instead of reasoning about masks. -/

namespace Sys2Proof

theorem append_eq_append_iff {n m : Nat} (a a' : BitVec n) (b b' : BitVec m) :
    a ++ b = a' ++ b' ↔ a = a' ∧ b = b' := by
  refine ⟨fun h => ⟨?_, ?_⟩, fun h => by rw [h.1, h.2]⟩
  · apply BitVec.eq_of_getLsbD_eq
    intro i hi
    have := congrArg (fun x => x.getLsbD (m + i)) h
    simpa [BitVec.getLsbD_append] using this
  · apply BitVec.eq_of_getLsbD_eq
    intro i hi
    have := congrArg (fun x => x.getLsbD i) h
    simpa [BitVec.getLsbD_append, hi] using this

/-- The mask of formats I and J keeps the opcode. -/
theorem and_opcode_mask (w : Word) : w &&& 0xFC000000#32 = w.extractLsb' 26 6 ++ 0#26 := by
  apply BitVec.eq_of_getLsbD_eq
  intro i hi
  simp only [BitVec.getLsbD_and, BitVec.getLsbD_append, BitVec.getLsbD_extractLsb']
  interval_cases i <;> simp

/-- The mask of `add` and `sub` keeps opcode, shamt and funct. -/
theorem and_funct_mask (w : Word) : w &&& 0xFC0007FF#32 = w.extractLsb' 26 6 ++ 0#15 ++ w.extractLsb' 0 11 := by
  apply BitVec.eq_of_getLsbD_eq
  intro i hi
  simp only [BitVec.getLsbD_and, BitVec.getLsbD_append, BitVec.getLsbD_extractLsb']
  interval_cases i <;> simp

/-- The mask of `sll` keeps opcode, `f_rs` and funct. -/
theorem and_sll_mask (w : Word) : w &&& 0xFFE0003F#32 = w.extractLsb' 21 11 ++ 0#15 ++ w.extractLsb' 0 6 := by
  apply BitVec.eq_of_getLsbD_eq
  intro i hi
  simp only [BitVec.getLsbD_and, BitVec.getLsbD_append, BitVec.getLsbD_extractLsb']
  interval_cases i <;> simp

/-- A row with the opcode mask selects by opcode. -/
theorem selects_opcode_iff (op : Op) (code : BitVec 6) (w : Word) :
    (Row.mk op 0xFC000000#32 (code ++ 0#26)).selects w = true ↔ w.extractLsb' 26 6 = code := by
  unfold Row.selects
  simp only [beq_iff_eq]
  rw [and_opcode_mask, append_eq_append_iff]
  simp

/-- A row with the mask of `add` selects by opcode, shamt and funct. -/
theorem selects_funct_iff (op : Op) (code : BitVec 11) (w : Word) :
    (Row.mk op 0xFC0007FF#32 (0#6 ++ 0#15 ++ code)).selects w = true ↔
      w.extractLsb' 26 6 = 0 ∧ w.extractLsb' 0 11 = code := by
  unfold Row.selects
  simp only [beq_iff_eq]
  rw [and_funct_mask, append_eq_append_iff, append_eq_append_iff]
  simp

theorem rowSll_selects_iff (w : Word) :
    rowSll.selects w = true ↔ w.extractLsb' 21 11 = 0 ∧ w.extractLsb' 0 6 = 0 := by
  have h : (0x00000000#32) = 0#11 ++ 0#15 ++ 0#6 := by decide
  have hm : rowSll.selects w = true ↔ w &&& 0xFFE0003F#32 = 0x00000000#32 := beq_iff_eq
  rw [hm, and_sll_mask, h, append_eq_append_iff, append_eq_append_iff]
  simp

theorem rowAdd_selects_iff (w : Word) :
    rowAdd.selects w = true ↔ w.extractLsb' 26 6 = 0 ∧ w.extractLsb' 0 11 = 0x20 :=
  selects_funct_iff .ADD 0x20 w

theorem rowSub_selects_iff (w : Word) :
    rowSub.selects w = true ↔ w.extractLsb' 26 6 = 0 ∧ w.extractLsb' 0 11 = 0x22 :=
  selects_funct_iff .SUB 0x22 w

theorem rowJ_selects_iff (w : Word) : rowJ.selects w = true ↔ w.extractLsb' 26 6 = 0x02 :=
  selects_opcode_iff .J 0x02 w

theorem rowBeq_selects_iff (w : Word) : rowBeq.selects w = true ↔ w.extractLsb' 26 6 = 0x04 :=
  selects_opcode_iff .BEQ 0x04 w

theorem rowAddi_selects_iff (w : Word) : rowAddi.selects w = true ↔ w.extractLsb' 26 6 = 0x08 :=
  selects_opcode_iff .ADDI 0x08 w

theorem rowLw_selects_iff (w : Word) : rowLw.selects w = true ↔ w.extractLsb' 26 6 = 0x23 :=
  selects_opcode_iff .LW 0x23 w

theorem rowSw_selects_iff (w : Word) : rowSw.selects w = true ↔ w.extractLsb' 26 6 = 0x2B :=
  selects_opcode_iff .SW 0x2B w

/-! ### Fields of an encoded word -/

theorem formatR_opcode (op funct : BitVec 6) (rs rt rd sh : Reg) :
    (formatR op rs rt rd sh funct).extractLsb' 26 6 = op := by
  unfold formatR
  apply BitVec.eq_of_getLsbD_eq
  intro i hi
  simp only [BitVec.getLsbD_append, BitVec.getLsbD_extractLsb']
  interval_cases i <;> simp

theorem formatR_opcode_rs (op funct : BitVec 6) (rs rt rd sh : Reg) :
    (formatR op rs rt rd sh funct).extractLsb' 21 11 = op ++ rs := by
  unfold formatR
  apply BitVec.eq_of_getLsbD_eq
  intro i hi
  simp only [BitVec.getLsbD_append, BitVec.getLsbD_extractLsb']
  interval_cases i <;> simp

theorem formatR_shamt_funct (op funct : BitVec 6) (rs rt rd sh : Reg) :
    (formatR op rs rt rd sh funct).extractLsb' 0 11 = sh ++ funct := by
  unfold formatR
  apply BitVec.eq_of_getLsbD_eq
  intro i hi
  simp only [BitVec.getLsbD_append, BitVec.getLsbD_extractLsb']
  interval_cases i <;> simp

theorem formatR_funct (op funct : BitVec 6) (rs rt rd sh : Reg) :
    (formatR op rs rt rd sh funct).extractLsb' 0 6 = funct := by
  unfold formatR
  apply BitVec.eq_of_getLsbD_eq
  intro i hi
  simp only [BitVec.getLsbD_append, BitVec.getLsbD_extractLsb']
  interval_cases i <;> simp

theorem formatI_opcode (op : BitVec 6) (rs rt : Reg) (imm : BitVec 16) :
    (formatI op rs rt imm).extractLsb' 26 6 = op := by
  unfold formatI
  apply BitVec.eq_of_getLsbD_eq
  intro i hi
  simp only [BitVec.getLsbD_append, BitVec.getLsbD_extractLsb']
  interval_cases i <;> simp

theorem formatJ_opcode (op : BitVec 6) (index : BitVec 26) : (formatJ op index).extractLsb' 26 6 = op := by
  unfold formatJ
  apply BitVec.eq_of_getLsbD_eq
  intro i hi
  simp only [BitVec.getLsbD_append, BitVec.getLsbD_extractLsb']
  interval_cases i <;> simp

end Sys2Proof
end

