-- ==== Sys2Proof/Laws/HostOps.lean ====
section
/-! SUPPORT. Laws of the host operations (Machine/HostOps.lean). -/

namespace Sys2Proof.Machine

/-- Everything a load of words with a next state does (R180). -/
theorem loadWords_next {ws : List Word} {s t : State} (h : loadWords ws s = .next t) :
    ws.length ≤ Config.maxProgramWords ∧ t = { resetOp s with imem := ws } := by
  unfold loadWords at h
  split at h
  · rename_i hl; cases h; exact ⟨hl, rfl⟩
  · cases h

/-- A load of a text with a next state is a load of its words (R180). -/
theorem loadText_next {source : Text} {s t : State} (h : loadText source s = .next t) :
    ∃ ws, assemble source = .ok ws ∧ loadWords ws s = .next t := by
  unfold loadText at h
  split at h
  · rename_i ws hw; exact ⟨ws, hw, h⟩
  · cases h

end Sys2Proof.Machine
end

