-- ==== Sys2Proof/Laws/State.lean ====
section
/-! SUPPORT. One lemma per field per named update of `State`, so that no proof unfolds a record update. -/

namespace Sys2Proof.Machine

/-! `State.setReg` -/

@[simp] theorem State.setReg_dmem (s : State) (r : Reg) (v : Word) : (s.setReg r v).dmem = s.dmem := by
  unfold State.setReg; split <;> rfl
@[simp] theorem State.setReg_pc (s : State) (r : Reg) (v : Word) : (s.setReg r v).pc = s.pc := by
  unfold State.setReg; split <;> rfl
@[simp] theorem State.setReg_cycleCount (s : State) (r : Reg) (v : Word) : (s.setReg r v).cycleCount = s.cycleCount := by
  unfold State.setReg; split <;> rfl
@[simp] theorem State.setReg_stallAsserted (s : State) (r : Reg) (v : Word) : (s.setReg r v).stallAsserted = s.stallAsserted := by
  unfold State.setReg; split <;> rfl
@[simp] theorem State.setReg_ifId (s : State) (r : Reg) (v : Word) : (s.setReg r v).ifId = s.ifId := by
  unfold State.setReg; split <;> rfl
@[simp] theorem State.setReg_idEx (s : State) (r : Reg) (v : Word) : (s.setReg r v).idEx = s.idEx := by
  unfold State.setReg; split <;> rfl
@[simp] theorem State.setReg_exMem (s : State) (r : Reg) (v : Word) : (s.setReg r v).exMem = s.exMem := by
  unfold State.setReg; split <;> rfl
@[simp] theorem State.setReg_memWb (s : State) (r : Reg) (v : Word) : (s.setReg r v).memWb = s.memWb := by
  unfold State.setReg; split <;> rfl
@[simp] theorem State.setReg_imem (s : State) (r : Reg) (v : Word) : (s.setReg r v).imem = s.imem := by
  unfold State.setReg; split <;> rfl
@[simp] theorem State.setReg_dmemMisaligned (s : State) (r : Reg) (v : Word) : (s.setReg r v).dmemMisaligned = s.dmemMisaligned := by
  unfold State.setReg; split <;> rfl

/-! `State.setPc` -/

@[simp] theorem State.setPc_x (s : State) (v : Word) : (s.setPc v).x = s.x := rfl
@[simp] theorem State.setPc_dmem (s : State) (v : Word) : (s.setPc v).dmem = s.dmem := rfl
@[simp] theorem State.setPc_pc (s : State) (v : Word) : (s.setPc v).pc = v := rfl
@[simp] theorem State.setPc_cycleCount (s : State) (v : Word) : (s.setPc v).cycleCount = s.cycleCount := rfl
@[simp] theorem State.setPc_stallAsserted (s : State) (v : Word) : (s.setPc v).stallAsserted = s.stallAsserted := rfl
@[simp] theorem State.setPc_ifId (s : State) (v : Word) : (s.setPc v).ifId = s.ifId := rfl
@[simp] theorem State.setPc_idEx (s : State) (v : Word) : (s.setPc v).idEx = s.idEx := rfl
@[simp] theorem State.setPc_exMem (s : State) (v : Word) : (s.setPc v).exMem = s.exMem := rfl
@[simp] theorem State.setPc_memWb (s : State) (v : Word) : (s.setPc v).memWb = s.memWb := rfl
@[simp] theorem State.setPc_imem (s : State) (v : Word) : (s.setPc v).imem = s.imem := rfl
@[simp] theorem State.setPc_dmemMisaligned (s : State) (v : Word) : (s.setPc v).dmemMisaligned = s.dmemMisaligned := rfl
@[simp] theorem State.setPc_reg (s : State) (v : Word) (q : Reg) : (s.setPc v).reg q = s.reg q := rfl

/-! `State.setIfId` -/

@[simp] theorem State.setIfId_x (s : State) (l : Latch) : (s.setIfId l).x = s.x := rfl
@[simp] theorem State.setIfId_dmem (s : State) (l : Latch) : (s.setIfId l).dmem = s.dmem := rfl
@[simp] theorem State.setIfId_pc (s : State) (l : Latch) : (s.setIfId l).pc = s.pc := rfl
@[simp] theorem State.setIfId_cycleCount (s : State) (l : Latch) : (s.setIfId l).cycleCount = s.cycleCount := rfl
@[simp] theorem State.setIfId_stallAsserted (s : State) (l : Latch) : (s.setIfId l).stallAsserted = s.stallAsserted := rfl
@[simp] theorem State.setIfId_ifId (s : State) (l : Latch) : (s.setIfId l).ifId = l := rfl
@[simp] theorem State.setIfId_idEx (s : State) (l : Latch) : (s.setIfId l).idEx = s.idEx := rfl
@[simp] theorem State.setIfId_exMem (s : State) (l : Latch) : (s.setIfId l).exMem = s.exMem := rfl
@[simp] theorem State.setIfId_memWb (s : State) (l : Latch) : (s.setIfId l).memWb = s.memWb := rfl
@[simp] theorem State.setIfId_imem (s : State) (l : Latch) : (s.setIfId l).imem = s.imem := rfl
@[simp] theorem State.setIfId_dmemMisaligned (s : State) (l : Latch) : (s.setIfId l).dmemMisaligned = s.dmemMisaligned := rfl
@[simp] theorem State.setIfId_reg (s : State) (l : Latch) (q : Reg) : (s.setIfId l).reg q = s.reg q := rfl

/-! `State.setIdEx` -/

@[simp] theorem State.setIdEx_x (s : State) (l : Latch) : (s.setIdEx l).x = s.x := rfl
@[simp] theorem State.setIdEx_dmem (s : State) (l : Latch) : (s.setIdEx l).dmem = s.dmem := rfl
@[simp] theorem State.setIdEx_pc (s : State) (l : Latch) : (s.setIdEx l).pc = s.pc := rfl
@[simp] theorem State.setIdEx_cycleCount (s : State) (l : Latch) : (s.setIdEx l).cycleCount = s.cycleCount := rfl
@[simp] theorem State.setIdEx_stallAsserted (s : State) (l : Latch) : (s.setIdEx l).stallAsserted = s.stallAsserted := rfl
@[simp] theorem State.setIdEx_ifId (s : State) (l : Latch) : (s.setIdEx l).ifId = s.ifId := rfl
@[simp] theorem State.setIdEx_idEx (s : State) (l : Latch) : (s.setIdEx l).idEx = l := rfl
@[simp] theorem State.setIdEx_exMem (s : State) (l : Latch) : (s.setIdEx l).exMem = s.exMem := rfl
@[simp] theorem State.setIdEx_memWb (s : State) (l : Latch) : (s.setIdEx l).memWb = s.memWb := rfl
@[simp] theorem State.setIdEx_imem (s : State) (l : Latch) : (s.setIdEx l).imem = s.imem := rfl
@[simp] theorem State.setIdEx_dmemMisaligned (s : State) (l : Latch) : (s.setIdEx l).dmemMisaligned = s.dmemMisaligned := rfl
@[simp] theorem State.setIdEx_reg (s : State) (l : Latch) (q : Reg) : (s.setIdEx l).reg q = s.reg q := rfl

/-! `State.setExMem` -/

@[simp] theorem State.setExMem_x (s : State) (l : Latch) : (s.setExMem l).x = s.x := rfl
@[simp] theorem State.setExMem_dmem (s : State) (l : Latch) : (s.setExMem l).dmem = s.dmem := rfl
@[simp] theorem State.setExMem_pc (s : State) (l : Latch) : (s.setExMem l).pc = s.pc := rfl
@[simp] theorem State.setExMem_cycleCount (s : State) (l : Latch) : (s.setExMem l).cycleCount = s.cycleCount := rfl
@[simp] theorem State.setExMem_stallAsserted (s : State) (l : Latch) : (s.setExMem l).stallAsserted = s.stallAsserted := rfl
@[simp] theorem State.setExMem_ifId (s : State) (l : Latch) : (s.setExMem l).ifId = s.ifId := rfl
@[simp] theorem State.setExMem_idEx (s : State) (l : Latch) : (s.setExMem l).idEx = s.idEx := rfl
@[simp] theorem State.setExMem_exMem (s : State) (l : Latch) : (s.setExMem l).exMem = l := rfl
@[simp] theorem State.setExMem_memWb (s : State) (l : Latch) : (s.setExMem l).memWb = s.memWb := rfl
@[simp] theorem State.setExMem_imem (s : State) (l : Latch) : (s.setExMem l).imem = s.imem := rfl
@[simp] theorem State.setExMem_dmemMisaligned (s : State) (l : Latch) : (s.setExMem l).dmemMisaligned = s.dmemMisaligned := rfl
@[simp] theorem State.setExMem_reg (s : State) (l : Latch) (q : Reg) : (s.setExMem l).reg q = s.reg q := rfl

/-! `State.setMemWb` -/

@[simp] theorem State.setMemWb_x (s : State) (l : Latch) : (s.setMemWb l).x = s.x := rfl
@[simp] theorem State.setMemWb_dmem (s : State) (l : Latch) : (s.setMemWb l).dmem = s.dmem := rfl
@[simp] theorem State.setMemWb_pc (s : State) (l : Latch) : (s.setMemWb l).pc = s.pc := rfl
@[simp] theorem State.setMemWb_cycleCount (s : State) (l : Latch) : (s.setMemWb l).cycleCount = s.cycleCount := rfl
@[simp] theorem State.setMemWb_stallAsserted (s : State) (l : Latch) : (s.setMemWb l).stallAsserted = s.stallAsserted := rfl
@[simp] theorem State.setMemWb_ifId (s : State) (l : Latch) : (s.setMemWb l).ifId = s.ifId := rfl
@[simp] theorem State.setMemWb_idEx (s : State) (l : Latch) : (s.setMemWb l).idEx = s.idEx := rfl
@[simp] theorem State.setMemWb_exMem (s : State) (l : Latch) : (s.setMemWb l).exMem = s.exMem := rfl
@[simp] theorem State.setMemWb_memWb (s : State) (l : Latch) : (s.setMemWb l).memWb = l := rfl
@[simp] theorem State.setMemWb_imem (s : State) (l : Latch) : (s.setMemWb l).imem = s.imem := rfl
@[simp] theorem State.setMemWb_dmemMisaligned (s : State) (l : Latch) : (s.setMemWb l).dmemMisaligned = s.dmemMisaligned := rfl
@[simp] theorem State.setMemWb_reg (s : State) (l : Latch) (q : Reg) : (s.setMemWb l).reg q = s.reg q := rfl

/-! `State.setDmem` -/

@[simp] theorem State.setDmem_x (s : State) (m : Mem) : (s.setDmem m).x = s.x := rfl
@[simp] theorem State.setDmem_dmem (s : State) (m : Mem) : (s.setDmem m).dmem = m := rfl
@[simp] theorem State.setDmem_pc (s : State) (m : Mem) : (s.setDmem m).pc = s.pc := rfl
@[simp] theorem State.setDmem_cycleCount (s : State) (m : Mem) : (s.setDmem m).cycleCount = s.cycleCount := rfl
@[simp] theorem State.setDmem_stallAsserted (s : State) (m : Mem) : (s.setDmem m).stallAsserted = s.stallAsserted := rfl
@[simp] theorem State.setDmem_ifId (s : State) (m : Mem) : (s.setDmem m).ifId = s.ifId := rfl
@[simp] theorem State.setDmem_idEx (s : State) (m : Mem) : (s.setDmem m).idEx = s.idEx := rfl
@[simp] theorem State.setDmem_exMem (s : State) (m : Mem) : (s.setDmem m).exMem = s.exMem := rfl
@[simp] theorem State.setDmem_memWb (s : State) (m : Mem) : (s.setDmem m).memWb = s.memWb := rfl
@[simp] theorem State.setDmem_imem (s : State) (m : Mem) : (s.setDmem m).imem = s.imem := rfl
@[simp] theorem State.setDmem_dmemMisaligned (s : State) (m : Mem) : (s.setDmem m).dmemMisaligned = s.dmemMisaligned := rfl
@[simp] theorem State.setDmem_reg (s : State) (m : Mem) (q : Reg) : (s.setDmem m).reg q = s.reg q := rfl

/-! `State.tick` -/

@[simp] theorem State.tick_x (s : State) : (s.tick).x = s.x := rfl
@[simp] theorem State.tick_dmem (s : State) : (s.tick).dmem = s.dmem := rfl
@[simp] theorem State.tick_pc (s : State) : (s.tick).pc = s.pc := rfl
@[simp] theorem State.tick_cycleCount (s : State) : (s.tick).cycleCount = s.cycleCount + 1 := rfl
@[simp] theorem State.tick_stallAsserted (s : State) : (s.tick).stallAsserted = false := rfl
@[simp] theorem State.tick_ifId (s : State) : (s.tick).ifId = s.ifId := rfl
@[simp] theorem State.tick_idEx (s : State) : (s.tick).idEx = s.idEx := rfl
@[simp] theorem State.tick_exMem (s : State) : (s.tick).exMem = s.exMem := rfl
@[simp] theorem State.tick_memWb (s : State) : (s.tick).memWb = s.memWb := rfl
@[simp] theorem State.tick_imem (s : State) : (s.tick).imem = s.imem := rfl
@[simp] theorem State.tick_dmemMisaligned (s : State) : (s.tick).dmemMisaligned = s.dmemMisaligned := rfl
@[simp] theorem State.tick_reg (s : State) (q : Reg) : (s.tick).reg q = s.reg q := rfl

/-! `State.assertStall` -/

@[simp] theorem State.assertStall_x (s : State) : (s.assertStall).x = s.x := rfl
@[simp] theorem State.assertStall_dmem (s : State) : (s.assertStall).dmem = s.dmem := rfl
@[simp] theorem State.assertStall_pc (s : State) : (s.assertStall).pc = s.pc := rfl
@[simp] theorem State.assertStall_cycleCount (s : State) : (s.assertStall).cycleCount = s.cycleCount := rfl
@[simp] theorem State.assertStall_stallAsserted (s : State) : (s.assertStall).stallAsserted = true := rfl
@[simp] theorem State.assertStall_ifId (s : State) : (s.assertStall).ifId = s.ifId := rfl
@[simp] theorem State.assertStall_idEx (s : State) : (s.assertStall).idEx = s.idEx := rfl
@[simp] theorem State.assertStall_exMem (s : State) : (s.assertStall).exMem = s.exMem := rfl
@[simp] theorem State.assertStall_memWb (s : State) : (s.assertStall).memWb = s.memWb := rfl
@[simp] theorem State.assertStall_imem (s : State) : (s.assertStall).imem = s.imem := rfl
@[simp] theorem State.assertStall_dmemMisaligned (s : State) : (s.assertStall).dmemMisaligned = s.dmemMisaligned := rfl
@[simp] theorem State.assertStall_reg (s : State) (q : Reg) : (s.assertStall).reg q = s.reg q := rfl

end Sys2Proof.Machine
end

