-- ==== Sys2Proof/Laws/Ops.lean ====
section
/-! SUPPORT. What the register and memory operations do: read after write, what a write leaves alone, and that every
memory operation keeps the canonical form. -/

namespace Sys2Proof.Machine

/-! ### Registers -/

@[simp] theorem State.reg_zero (s : State) : s.reg 0 = 0 := rfl

/-- A register write (R12) changes the register written, unless it is register 0, and no other. -/
theorem State.reg_setReg (s : State) (r q : Reg) (v : Word) :
    (s.setReg r v).reg q = if r ≠ 0 ∧ q = r then v else s.reg q := by
  unfold State.setReg State.reg
  by_cases hr : r = 0
  · rw [if_pos hr, if_neg (c := r ≠ 0 ∧ q = r) (fun h => h.1 hr)]
  · rw [if_neg hr]
    by_cases hq : q = 0
    · rw [if_pos hq, if_neg (fun h => hr (h.2.symm.trans hq)), if_pos hq]
    · rw [if_neg hq, if_neg hq]
      by_cases h : q = r
      · subst h
        rw [if_pos ⟨hr, rfl⟩]
        exact Vector.getElem_set_self _
      · have hn : r.toNat ≠ q.toNat := fun e => h (BitVec.eq_of_toNat_eq e.symm)
        rw [if_neg (fun hh => h hh.2)]
        exact Vector.getElem_set_ne r.isLt _ hn

/-- Cell 0 of the register array is never written (R12). -/
theorem State.setReg_x_zero (s : State) (r : Reg) (v : Word) : (s.setReg r v).x[0] = s.x[0] := by
  unfold State.setReg
  split
  · rfl
  · rename_i h
    have hn : r.toNat ≠ 0 := fun e => h (BitVec.eq_of_toNat_eq e)
    exact Vector.getElem_set_ne r.isLt _ hn

/-! ### Bytes -/

/-- A key below every entry reads as 0. -/
theorem Mem.readByte_below {m : Mem} {lo a : Nat} (h : m.wfFrom lo = true) (ha : a < lo) : m.readByte a = 0 := by
  induction m generalizing lo with
  | nil => rfl
  | cons c m ih =>
    obtain ⟨k, v⟩ := c
    simp only [Mem.wfFrom, Bool.and_eq_true, decide_eq_true_eq] at h
    have hk : ¬ a = k := by omega
    simp only [Mem.readByte, hk, if_false]
    exact ih h.2 (by omega)

/-- A byte write leaves every other byte alone. -/
theorem Mem.readByte_writeByte_other (m : Mem) (a b : Nat) (v : BitVec 8) (h : b ≠ a) :
    (m.writeByte a v).readByte b = m.readByte b := by
  induction m with
  | nil => simp only [Mem.writeByte]; split <;> simp [Mem.readByte, h]
  | cons c m ih =>
    obtain ⟨k, w⟩ := c
    simp only [Mem.writeByte]
    split
    · split <;> simp [Mem.readByte, h]
    · split
      · rename_i hak
        subst hak
        split <;> simp [Mem.readByte, h]
      · simp only [Mem.readByte, ih]

/-- In canonical memory a byte reads back as written. -/
theorem Mem.readByte_writeByte_same {m : Mem} {lo : Nat} (a : Nat) (v : BitVec 8) (h : m.wfFrom lo = true) :
    (m.writeByte a v).readByte a = v := by
  induction m generalizing lo with
  | nil => simp only [Mem.writeByte]; split <;> simp_all [Mem.readByte]
  | cons c m ih =>
    obtain ⟨k, w⟩ := c
    have hw := h
    simp only [Mem.wfFrom, Bool.and_eq_true, decide_eq_true_eq] at h
    simp only [Mem.writeByte]
    split
    · rename_i hlt
      split
      · rename_i hv
        have hk : ¬ a = k := by omega
        simp only [Mem.readByte, hk, if_false, hv]
        exact Mem.readByte_below h.2 (by omega)
      · simp [Mem.readByte]
    · split
      · rename_i hak
        subst hak
        split
        · rename_i hv
          rw [hv]
          exact Mem.readByte_below h.2 (by omega)
        · simp [Mem.readByte]
      · rename_i hak
        simp only [Mem.readByte, hak, if_false]
        exact ih h.2

/-- A byte write keeps the canonical form. -/
theorem Mem.wfFrom_writeByte {m : Mem} {lo : Nat} (a : Nat) (v : BitVec 8) (h : m.wfFrom lo = true) (ha : lo ≤ a) :
    (m.writeByte a v).wfFrom lo = true := by
  induction m generalizing lo with
  | nil =>
    simp only [Mem.writeByte]
    split
    · rfl
    · simp_all [Mem.wfFrom]
  | cons c m ih =>
    obtain ⟨k, w⟩ := c
    have hw := h
    simp only [Mem.wfFrom, Bool.and_eq_true, decide_eq_true_eq] at h
    have weaken : ∀ {n : Mem} {i j : Nat}, n.wfFrom j = true → i ≤ j → n.wfFrom i = true := by
      intro n i j hn hij
      cases n with
      | nil => rfl
      | cons c n =>
        obtain ⟨k', v'⟩ := c
        simp only [Mem.wfFrom, Bool.and_eq_true, decide_eq_true_eq] at hn ⊢
        exact ⟨⟨by omega, hn.1.2⟩, hn.2⟩
    simp only [Mem.writeByte]
    split
    · rename_i hlt
      split
      · exact hw
      · simp_all [Mem.wfFrom]
    · split
      · rename_i hak
        subst hak
        split
        · exact weaken h.2 (by omega)
        · simp_all [Mem.wfFrom]
      · simp only [Mem.wfFrom, Bool.and_eq_true, decide_eq_true_eq]
        exact ⟨h.1, ih h.2 (by omega)⟩

/-! ### Words -/

/-- The four lanes make the word. -/
theorem byteLanes_append (v : Word) :
    byteLane v 3 ++ byteLane v 2 ++ byteLane v 1 ++ byteLane v 0 = v := by
  unfold byteLane
  ext i hi
  simp only [BitVec.getElem_append, BitVec.getElem_extractLsb']
  split
  · simp [BitVec.getLsbD_eq_getElem, hi]
  · split
    · have : 8 * 1 + (i - 8) = i := by omega
      rw [this]; simp [hi]
    · split
      · have : 8 * 2 + (i - 8 - 8) = i := by omega
        rw [this]; simp [hi]
      · have : 8 * 3 + (i - 8 - 8 - 8) = i := by omega
        rw [this]; simp [hi]

/-- A word write keeps the canonical form. -/
theorem Mem.wf_writeWord {m : Mem} (k : Nat) (v : Word) (h : m.wf = true) : (m.writeWord k v).wf = true := by
  unfold Mem.writeWord Mem.wf at *
  exact Mem.wfFrom_writeByte _ _ (Mem.wfFrom_writeByte _ _ (Mem.wfFrom_writeByte _ _ (Mem.wfFrom_writeByte _ _ h
    (Nat.zero_le _)) (Nat.zero_le _)) (Nat.zero_le _)) (Nat.zero_le _)

/-- A word write leaves every byte outside its four alone. -/
theorem Mem.readByte_writeWord_outside (m : Mem) (k a : Nat) (v : Word) (h : a < k ∨ k + 4 ≤ a) :
    (m.writeWord k v).readByte a = m.readByte a := by
  unfold Mem.writeWord
  rw [readByte_writeByte_other _ _ _ _ (by omega), readByte_writeByte_other _ _ _ _ (by omega),
    readByte_writeByte_other _ _ _ _ (by omega), readByte_writeByte_other _ _ _ _ (by omega)]

/-- In canonical memory a word reads back as written. -/
theorem Mem.readWord_writeWord_same {m : Mem} (k : Nat) (v : Word) (h : m.wf = true) :
    (m.writeWord k v).readWord k = v := by
  have h0 := Mem.wfFrom_writeByte k (byteLane v 0) (m := m) h (Nat.zero_le _)
  have h1 := Mem.wfFrom_writeByte (k + 1) (byteLane v 1) h0 (Nat.zero_le _)
  have h2 := Mem.wfFrom_writeByte (k + 2) (byteLane v 2) h1 (Nat.zero_le _)
  unfold Mem.readWord Mem.writeWord
  rw [readByte_writeByte_same _ _ h2,
    readByte_writeByte_other _ (k + 3) (k + 2) _ (by omega), readByte_writeByte_same _ _ h1,
    readByte_writeByte_other _ (k + 3) (k + 1) _ (by omega), readByte_writeByte_other _ (k + 2) (k + 1) _ (by omega),
    readByte_writeByte_same _ _ h0,
    readByte_writeByte_other _ (k + 3) k _ (by omega), readByte_writeByte_other _ (k + 2) k _ (by omega),
    readByte_writeByte_other _ (k + 1) k _ (by omega), readByte_writeByte_same _ _ (m := m) h]
  exact byteLanes_append v

/-- A word write leaves every word that shares no byte with it alone. -/
theorem Mem.readWord_writeWord_other (m : Mem) (k j : Nat) (v : Word) (h : j + 4 ≤ k ∨ k + 4 ≤ j) :
    (m.writeWord k v).readWord j = m.readWord j := by
  unfold Mem.readWord
  rw [readByte_writeWord_outside _ _ _ _ (by omega), readByte_writeWord_outside _ _ _ _ (by omega),
    readByte_writeWord_outside _ _ _ _ (by omega), readByte_writeWord_outside _ _ _ _ (by omega)]

/-! ### Addresses -/

/-- An aligned address is the key of its own cell. -/
theorem cellKey_of_aligned {a : Word} (h : aligned a = true) : cellKey a = a.toNat := by
  simp only [aligned, beq_iff_eq] at h
  unfold cellKey
  omega

/-- Two addresses that differ have cells that share no byte. -/
theorem cellKey_disjoint {a b : Word} (h : a ≠ b) : cellKey a + 4 ≤ cellKey b ∨ cellKey b + 4 ≤ cellKey a := by
  have hn : a.toNat ≠ b.toNat := fun e => h (BitVec.eq_of_toNat_eq e)
  have ha := a.isLt
  have hb := b.isLt
  unfold cellKey
  omega

/-- An aligned access reaches its own cell under every value of the parameter (R36). -/
theorem resolveAddr_of_aligned {a : Word} (p : DmemMisaligned) (h : aligned a = true) :
    resolveAddr p a = .ok a.toNat := by
  simp [resolveAddr, h, cellKey_of_aligned h]

/-- `MemWrite` keeps the canonical form of memory. -/
theorem memWrite_wf {p : DmemMisaligned} {m m' : Mem} {a v : Word} (h : memWrite p m a v = .ok m') (hm : m.wf = true) :
    m'.wf = true := by
  unfold memWrite at h
  split at h
  · cases h; exact Mem.wf_writeWord _ _ hm
  · cases h

/-- The memory of the reset state has the canonical form. -/
theorem reset_dmem_wf : State.reset.dmem.wf = true := rfl

end Sys2Proof.Machine
end

