-- ==== Sys2Proof/Laws/PerInstr.lean ====
section
/-! SUPPORT. Statements about every instruction as syntax, one lemma per constructor. Family `EncodingRow`: the word the
encoder emits selects the instruction's own row of the opcode map (30_encoding.md R55). -/

namespace Sys2Proof.Laws.EncodingRow

/-- The row of an instruction in R55. -/
def rowOf : Instr → Row
  | .sll _ _ _  => rowSll
  | .add _ _ _  => rowAdd
  | .sub _ _ _  => rowSub
  | .j _        => rowJ
  | .beq _ _ _  => rowBeq
  | .addi _ _ _ => rowAddi
  | .lw _ _ _   => rowLw
  | .sw _ _ _   => rowSw

/-- The encoding of `i` selects the row of `i`. -/
def Statement (i : Instr) : Prop := (rowOf i).selects (encode i) = true

theorem sll (rd rs : Reg) (imm : Word) : Statement (.sll rd rs imm) :=
  (rowSll_selects_iff _).mpr ⟨by rw [encode, formatR_opcode_rs]; decide, formatR_funct _ _ _ _ _ _⟩

theorem add (rd rs rt : Reg) : Statement (.add rd rs rt) :=
  (rowAdd_selects_iff _).mpr ⟨formatR_opcode _ _ _ _ _ _, by rw [encode, formatR_shamt_funct]; decide⟩

theorem sub (rd rs rt : Reg) : Statement (.sub rd rs rt) :=
  (rowSub_selects_iff _).mpr ⟨formatR_opcode _ _ _ _ _ _, by rw [encode, formatR_shamt_funct]; decide⟩

theorem j (target : Word) : Statement (.j target) := (rowJ_selects_iff _).mpr (formatJ_opcode _ _)

theorem beq (rs rt : Reg) (imm : Word) : Statement (.beq rs rt imm) :=
  (rowBeq_selects_iff _).mpr (formatI_opcode _ _ _ _)

theorem addi (rt rs : Reg) (imm : Word) : Statement (.addi rt rs imm) :=
  (rowAddi_selects_iff _).mpr (formatI_opcode _ _ _ _)

theorem lw (rt rs : Reg) (imm : Word) : Statement (.lw rt rs imm) :=
  (rowLw_selects_iff _).mpr (formatI_opcode _ _ _ _)

theorem sw (rt rs : Reg) (imm : Word) : Statement (.sw rt rs imm) :=
  (rowSw_selects_iff _).mpr (formatI_opcode _ _ _ _)

end Sys2Proof.Laws.EncodingRow
end

