-- ==== Sys2Proof/Laws/Stages.lean ====
section
/-! SUPPORT. What each stage and the clock cycle can do, said once; cite these rather than unfold a stage. -/

namespace Sys2Proof.Machine

/-! ### Write-back (R85) -/

@[simp] theorem writeBack_dmem (l : Latch) (s : State) : (writeBack l s).dmem = s.dmem := by
  unfold writeBack; split <;> simp
@[simp] theorem writeBack_pc (l : Latch) (s : State) : (writeBack l s).pc = s.pc := by
  unfold writeBack; split <;> simp
@[simp] theorem writeBack_cycleCount (l : Latch) (s : State) : (writeBack l s).cycleCount = s.cycleCount := by
  unfold writeBack; split <;> simp
@[simp] theorem writeBack_stallAsserted (l : Latch) (s : State) : (writeBack l s).stallAsserted = s.stallAsserted := by
  unfold writeBack; split <;> simp
@[simp] theorem writeBack_ifId (l : Latch) (s : State) : (writeBack l s).ifId = s.ifId := by
  unfold writeBack; split <;> simp
@[simp] theorem writeBack_idEx (l : Latch) (s : State) : (writeBack l s).idEx = s.idEx := by
  unfold writeBack; split <;> simp
@[simp] theorem writeBack_exMem (l : Latch) (s : State) : (writeBack l s).exMem = s.exMem := by
  unfold writeBack; split <;> simp
@[simp] theorem writeBack_memWb (l : Latch) (s : State) : (writeBack l s).memWb = s.memWb := by
  unfold writeBack; split <;> simp
@[simp] theorem writeBack_imem (l : Latch) (s : State) : (writeBack l s).imem = s.imem := by
  unfold writeBack; split <;> simp
@[simp] theorem writeBack_dmemMisaligned (l : Latch) (s : State) : (writeBack l s).dmemMisaligned = s.dmemMisaligned := by
  unfold writeBack; split <;> simp

/-- Write-back changes the destination of a present latch, unless that is register 0, and no other register. -/
theorem writeBack_reg (l : Latch) (s : State) (q : Reg) :
    (writeBack l s).reg q = if l.present = true ∧ l.dest ≠ 0 ∧ q = l.dest then result l else s.reg q := by
  unfold writeBack
  by_cases hp : l.present = true
  · rw [if_pos hp, State.reg_setReg]
    simp only [hp, true_and]
  · rw [if_neg hp, if_neg (fun h => hp h.1)]

/-- Write-back sees the registers only: the rest of the state does not matter for what a register becomes. -/
theorem writeBack_reg_congr (l : Latch) {s t : State} (h : s.x = t.x) (q : Reg) :
    (writeBack l s).reg q = (writeBack l t).reg q := by
  have : s.reg q = t.reg q := by unfold State.reg; rw [h]
  rw [writeBack_reg, writeBack_reg, this]

/-! ### Memory stage (R86, R87) -/

/-- Everything the Memory stage can answer. -/
theorem memoryStage_ok {p : DmemMisaligned} {l mw : Latch} {m m' : Mem} (h : memoryStage p l m = .ok (mw, m')) :
    (l.present = false ∧ mw = bubble ∧ m' = m) ∨
    (l.present = true ∧ l.op = .LW ∧ m' = m ∧
      ∃ v, memRead p m l.aluResult = .ok v ∧ mw = { l with loadedValue := v }) ∨
    (l.present = true ∧ l.op = .SW ∧ memWrite p m l.aluResult l.storeValue = .ok m' ∧ mw = l) ∨
    (l.present = true ∧ l.op ≠ .LW ∧ l.op ≠ .SW ∧ mw = l ∧ m' = m) := by
  unfold memoryStage at h
  by_cases hp : l.present = true
  · rw [if_pos hp] at h
    by_cases hl : l.op = .LW
    · rw [if_pos hl] at h
      split at h
      · rename_i v hv
        cases h
        exact .inr (.inl ⟨hp, hl, rfl, v, hv, rfl⟩)
      · cases h
    · rw [if_neg hl] at h
      by_cases hs : l.op = .SW
      · rw [if_pos hs] at h
        split at h
        · rename_i m'' hm
          cases h
          exact .inr (.inr (.inl ⟨hp, hs, hm, rfl⟩))
        · cases h
      · rw [if_neg hs] at h
        cases h
        exact .inr (.inr (.inr ⟨hp, hl, hs, rfl, rfl⟩))
  · rw [if_neg hp] at h
    cases h
    exact .inl ⟨by simpa using hp, rfl, rfl⟩

/-- The Memory stage passes `present` and `dest` on unless it passes a bubble. -/
theorem memoryStage_fields {p : DmemMisaligned} {l mw : Latch} {m m' : Mem} (h : memoryStage p l m = .ok (mw, m'))
    (hp : l.present = true) : ∃ v, mw = { l with loadedValue := v } := by
  obtain ⟨hn, -⟩ | ⟨-, -, -, v, -, rfl⟩ | ⟨-, -, -, hw⟩ | ⟨-, -, -, hw, -⟩ := memoryStage_ok h
  · rw [hp] at hn; cases hn
  · exact ⟨v, rfl⟩
  · exact ⟨l.loadedValue, hw⟩
  · exact ⟨l.loadedValue, hw⟩

/-- The Memory stage keeps the canonical form of memory. -/
theorem memoryStage_wf {p : DmemMisaligned} {l mw : Latch} {m m' : Mem} (h : memoryStage p l m = .ok (mw, m'))
    (hm : m.wf = true) : m'.wf = true := by
  obtain ⟨-, -, rfl⟩ | ⟨-, -, rfl, -⟩ | ⟨-, -, hw, -⟩ | ⟨-, -, -, -, rfl⟩ := memoryStage_ok h
  · exact hm
  · exact hm
  · exact memWrite_wf hw hm
  · exact hm

/-! ### Execute (R88, R89) -/

theorem execute_absent {l : Latch} (f1 f2 : Latch) (h : l.present = false) : execute l f1 f2 = bubble := by
  simp [execute, h]

theorem execute_present {l : Latch} (f1 f2 : Latch) (h : l.present = true) : execute l f1 f2 =
    { l with
      aluResult := alu l.op (forward l.rs l.rsValue f1 f2) (forward l.rt l.rtValue f1 f2) l.imm
      storeValue := forward l.rt l.rtValue f1 f2 } := by
  simp [execute, h]

/-! ### The state Decode finds -/

@[simp] theorem beforeDecode_dmem (s : State) (mw : Latch) (m : Mem) : (beforeDecode s mw m).dmem = m := by
  simp [beforeDecode]
@[simp] theorem beforeDecode_pc (s : State) (mw : Latch) (m : Mem) : (beforeDecode s mw m).pc = s.pc := by
  simp [beforeDecode]
@[simp] theorem beforeDecode_cycleCount (s : State) (mw : Latch) (m : Mem) : (beforeDecode s mw m).cycleCount = s.cycleCount + 1 := by
  simp [beforeDecode]
@[simp] theorem beforeDecode_stallAsserted (s : State) (mw : Latch) (m : Mem) : (beforeDecode s mw m).stallAsserted = false := by
  simp [beforeDecode]
@[simp] theorem beforeDecode_ifId (s : State) (mw : Latch) (m : Mem) : (beforeDecode s mw m).ifId = s.ifId := by
  simp [beforeDecode]
@[simp] theorem beforeDecode_idEx (s : State) (mw : Latch) (m : Mem) : (beforeDecode s mw m).idEx = s.idEx := by
  simp [beforeDecode]
@[simp] theorem beforeDecode_exMem (s : State) (mw : Latch) (m : Mem) : (beforeDecode s mw m).exMem = execute s.idEx s.exMem s.memWb := by
  simp [beforeDecode]
@[simp] theorem beforeDecode_memWb (s : State) (mw : Latch) (m : Mem) : (beforeDecode s mw m).memWb = mw := by
  simp [beforeDecode]
@[simp] theorem beforeDecode_imem (s : State) (mw : Latch) (m : Mem) : (beforeDecode s mw m).imem = s.imem := by
  simp [beforeDecode]
@[simp] theorem beforeDecode_dmemMisaligned (s : State) (mw : Latch) (m : Mem) : (beforeDecode s mw m).dmemMisaligned = s.dmemMisaligned := by
  simp [beforeDecode]

/-- The registers Decode reads are those after Write-back of the same cycle (R83). -/
theorem beforeDecode_reg (s : State) (mw : Latch) (m : Mem) (q : Reg) :
    (beforeDecode s mw m).reg q = (writeBack s.memWb s).reg q := by
  unfold beforeDecode
  simp only [State.setExMem_reg, State.setMemWb_reg, State.setDmem_reg]
  exact writeBack_reg_congr _ (by simp) q

/-! ### Decode (R94 to R103) -/

@[simp] theorem decodeStage_x (d : Decoded) (l la : Latch) (s : State) : (decodeStage d l la s).x = s.x := by
  unfold decodeStage; split_ifs <;> simp [stallAction, takenBranchAction, jumpAction]
@[simp] theorem decodeEmpty_x (s : State) : (decodeEmpty s).x = s.x := rfl
@[simp] theorem decodeStage_dmem (d : Decoded) (l la : Latch) (s : State) : (decodeStage d l la s).dmem = s.dmem := by
  unfold decodeStage; split_ifs <;> simp [stallAction, takenBranchAction, jumpAction]
@[simp] theorem decodeEmpty_dmem (s : State) : (decodeEmpty s).dmem = s.dmem := rfl
@[simp] theorem decodeStage_cycleCount (d : Decoded) (l la : Latch) (s : State) : (decodeStage d l la s).cycleCount = s.cycleCount := by
  unfold decodeStage; split_ifs <;> simp [stallAction, takenBranchAction, jumpAction]
@[simp] theorem decodeEmpty_cycleCount (s : State) : (decodeEmpty s).cycleCount = s.cycleCount := rfl
@[simp] theorem decodeStage_exMem (d : Decoded) (l la : Latch) (s : State) : (decodeStage d l la s).exMem = s.exMem := by
  unfold decodeStage; split_ifs <;> simp [stallAction, takenBranchAction, jumpAction]
@[simp] theorem decodeEmpty_exMem (s : State) : (decodeEmpty s).exMem = s.exMem := rfl
@[simp] theorem decodeStage_memWb (d : Decoded) (l la : Latch) (s : State) : (decodeStage d l la s).memWb = s.memWb := by
  unfold decodeStage; split_ifs <;> simp [stallAction, takenBranchAction, jumpAction]
@[simp] theorem decodeEmpty_memWb (s : State) : (decodeEmpty s).memWb = s.memWb := rfl
@[simp] theorem decodeStage_imem (d : Decoded) (l la : Latch) (s : State) : (decodeStage d l la s).imem = s.imem := by
  unfold decodeStage; split_ifs <;> simp [stallAction, takenBranchAction, jumpAction]
@[simp] theorem decodeEmpty_imem (s : State) : (decodeEmpty s).imem = s.imem := rfl
@[simp] theorem decodeStage_dmemMisaligned (d : Decoded) (l la : Latch) (s : State) : (decodeStage d l la s).dmemMisaligned = s.dmemMisaligned := by
  unfold decodeStage; split_ifs <;> simp [stallAction, takenBranchAction, jumpAction]
@[simp] theorem decodeEmpty_dmemMisaligned (s : State) : (decodeEmpty s).dmemMisaligned = s.dmemMisaligned := rfl
@[simp] theorem decodeEmpty_pc (s : State) : (decodeEmpty s).pc = s.pc := rfl
@[simp] theorem decodeEmpty_stallAsserted (s : State) : (decodeEmpty s).stallAsserted = s.stallAsserted := rfl
@[simp] theorem decodeEmpty_ifId (s : State) : (decodeEmpty s).ifId = s.ifId := rfl
@[simp] theorem decodeEmpty_idEx (s : State) : (decodeEmpty s).idEx = bubble := rfl
@[simp] theorem decodeEmpty_reg (s : State) (q : Reg) : (decodeEmpty s).reg q = s.reg q := rfl
@[simp] theorem decodeStage_reg (d : Decoded) (l la : Latch) (s : State) (q : Reg) :
    (decodeStage d l la s).reg q = s.reg q := by
  unfold State.reg; rw [decodeStage_x]

/-- Everything Decode can do with an instruction (R96): stall, redirect or pass it on. -/
theorem decodeStage_cases (d : Decoded) (l la : Latch) (s : State) :
    (hazard d la = true ∧ decodeStage d l la s = stallAction s) ∨
    (hazard d la = false ∧ d.op = .BEQ ∧ s.reg d.rs = s.reg d.rt ∧
      decodeStage d l la s = takenBranchAction l.pc d.imm s) ∨
    (hazard d la = false ∧ d.op = .J ∧ decodeStage d l la s = jumpAction d.imm s) ∨
    (hazard d la = false ∧ ¬ (d.op = .BEQ ∧ s.reg d.rs = s.reg d.rt) ∧ d.op ≠ .J ∧
      decodeStage d l la s = s.setIdEx (issuedLatch d l.pc s)) := by
  unfold decodeStage
  by_cases hh : hazard d la = true
  · exact .inl ⟨hh, if_pos hh⟩
  · have hf : hazard d la = false := by simpa using hh
    rw [if_neg hh]
    by_cases hb : d.op = .BEQ ∧ s.reg d.rs = s.reg d.rt
    · exact .inr (.inl ⟨hf, hb.1, hb.2, if_pos hb⟩)
    · rw [if_neg hb]
      by_cases hj : d.op = .J
      · exact .inr (.inr (.inl ⟨hf, hj, if_pos hj⟩))
      · exact .inr (.inr (.inr ⟨hf, hb, hj, if_neg hj⟩))

/-- A load-use hazard needs a `LW` with a nonzero destination ahead (R98). -/
theorem hazard_eq_false_of_op {d : Decoded} {la : Latch} (h : la.op ≠ .LW) : hazard d la = false := by
  simp [hazard, h]

/-! ### Fetch (R105 to R107) -/

@[simp] theorem fetch_x (s : State) : (fetch s).x = s.x := by
  unfold fetch; split_ifs <;> simp
@[simp] theorem fetch_dmem (s : State) : (fetch s).dmem = s.dmem := by
  unfold fetch; split_ifs <;> simp
@[simp] theorem fetch_cycleCount (s : State) : (fetch s).cycleCount = s.cycleCount := by
  unfold fetch; split_ifs <;> simp
@[simp] theorem fetch_stallAsserted (s : State) : (fetch s).stallAsserted = s.stallAsserted := by
  unfold fetch; split_ifs <;> simp
@[simp] theorem fetch_idEx (s : State) : (fetch s).idEx = s.idEx := by
  unfold fetch; split_ifs <;> simp
@[simp] theorem fetch_exMem (s : State) : (fetch s).exMem = s.exMem := by
  unfold fetch; split_ifs <;> simp
@[simp] theorem fetch_memWb (s : State) : (fetch s).memWb = s.memWb := by
  unfold fetch; split_ifs <;> simp
@[simp] theorem fetch_imem (s : State) : (fetch s).imem = s.imem := by
  unfold fetch; split_ifs <;> simp
@[simp] theorem fetch_dmemMisaligned (s : State) : (fetch s).dmemMisaligned = s.dmemMisaligned := by
  unfold fetch; split_ifs <;> simp
@[simp] theorem fetch_reg (s : State) (q : Reg) : (fetch s).reg q = s.reg q := by
  unfold State.reg; rw [fetch_x]

/-- Fetch in a stall cycle (R105). -/
theorem fetch_stalled {s : State} (h : s.stallAsserted = true) : fetch s = s := by
  simp [fetch, h]

/-- Fetch at or beyond the end of the program (R106). -/
theorem fetch_outside {s : State} (h : s.stallAsserted = false) (hp : s.inProgram s.pc = false) :
    fetch s = s.setIfId bubble := by
  simp [fetch, h, hp]

/-- Fetch of an instruction (R107). -/
theorem fetch_inside {s : State} (h : s.stallAsserted = false) (hp : s.inProgram s.pc = true) :
    fetch s = (s.setIfId (fetchedLatch s.pc (s.fetchWord s.pc))).setPc (s.pc + 4) := by
  simp [fetch, h, hp]

/-! ### The cycle (R81) -/

/-- A cycle answers a next state exactly when the Memory stage answers, and then this one. -/
theorem cycle_next_iff {dec : State → State} {s t : State} :
    cycle dec s = .next t ↔ ∃ mw m, memoryStage s.dmemMisaligned s.exMem s.dmem = .ok (mw, m) ∧
      t = fetch (dec (beforeDecode s mw m)) := by
  unfold cycle
  cases h : memoryStage s.dmemMisaligned s.exMem s.dmem with
  | ok r => obtain ⟨mw, m⟩ := r; simp [eq_comm]
  | error r => simp

/-- Under a defined access the Memory stage answers (R36). -/
theorem memoryStage_of_accessDefined {s : State} (h : accessDefined s) :
    ∃ mw m, memoryStage s.dmemMisaligned s.exMem s.dmem = .ok (mw, m) := by
  unfold memoryStage
  by_cases hp : s.exMem.present = true
  · have hr : s.exMem.op = .LW ∨ s.exMem.op = .SW →
        ∃ k, resolveAddr s.dmemMisaligned s.exMem.aluResult = .ok k := by
      intro ho
      unfold resolveAddr
      rcases h hp ho with ha | hm
      · exact ⟨_, if_pos ha⟩
      · split
        · exact ⟨_, rfl⟩
        · cases hd : s.dmemMisaligned with
          | refuse => exact absurd hd hm
          | exactKey => exact ⟨_, rfl⟩
          | truncate => exact ⟨_, rfl⟩
    rw [if_pos hp]
    by_cases hl : s.exMem.op = .LW
    · obtain ⟨k, hk⟩ := hr (.inl hl)
      exact ⟨{ s.exMem with loadedValue := s.dmem.readWord k }, s.dmem, by rw [if_pos hl]; simp [memRead, hk]⟩
    · by_cases hs : s.exMem.op = .SW
      · obtain ⟨k, hk⟩ := hr (.inr hs)
        exact ⟨s.exMem, s.dmem.writeWord k s.exMem.storeValue, by rw [if_neg hl, if_pos hs]; simp [memWrite, hk]⟩
      · exact ⟨s.exMem, s.dmem, by rw [if_neg hl, if_neg hs]⟩
  · exact ⟨bubble, s.dmem, if_neg hp⟩

end Sys2Proof.Machine
end

