-- ==== Sys2Proof/Laws/Sequential.lean ====
section
/-! SUPPORT. Laws of the sequential machine's registers and of completing the instruction in MEM_WB, and of running several
cycles (Machine/Sequential.lean, Safety.lean). -/

namespace Sys2Proof.Machine

/-- Reading after writing a register of the sequential machine (R11, R12). -/
theorem SeqState.reg_setReg (a : SeqState) (r q : Reg) (v : Word) :
    (a.setReg r v).reg q = if r ≠ 0 ∧ q = r then v else a.reg q := by
  have h := State.reg_setReg { State.reset with x := a.x } r q v
  unfold SeqState.setReg SeqState.reg
  unfold State.setReg State.reg at h
  split_ifs at h ⊢ <;> simp_all

@[simp] theorem SeqState.setReg_zero (a : SeqState) (v : Word) : a.setReg 0 v = a := if_pos rfl

@[simp] theorem SeqState.setReg_dmem (a : SeqState) (r : Reg) (v : Word) : (a.setReg r v).dmem = a.dmem := by
  unfold SeqState.setReg; split <;> rfl
@[simp] theorem SeqState.setReg_pc (a : SeqState) (r : Reg) (v : Word) : (a.setReg r v).pc = a.pc := by
  unfold SeqState.setReg; split <;> rfl
@[simp] theorem SeqState.setReg_imem (a : SeqState) (r : Reg) (v : Word) : (a.setReg r v).imem = a.imem := by
  unfold SeqState.setReg; split <;> rfl
@[simp] theorem SeqState.setReg_dmemMisaligned (a : SeqState) (r : Reg) (v : Word) :
    (a.setReg r v).dmemMisaligned = a.dmemMisaligned := by
  unfold SeqState.setReg; split <;> rfl

@[simp] theorem completeMemWb_dmem (l : Latch) (a : SeqState) : (completeMemWb l a).dmem = a.dmem := by
  unfold completeMemWb; split <;> simp
@[simp] theorem completeMemWb_pc (l : Latch) (a : SeqState) : (completeMemWb l a).pc = a.pc := by
  unfold completeMemWb; split <;> simp
@[simp] theorem completeMemWb_imem (l : Latch) (a : SeqState) : (completeMemWb l a).imem = a.imem := by
  unfold completeMemWb; split <;> simp
@[simp] theorem completeMemWb_dmemMisaligned (l : Latch) (a : SeqState) :
    (completeMemWb l a).dmemMisaligned = a.dmemMisaligned := by
  unfold completeMemWb; split <;> simp

/-- The registers Decode reads are those with the instruction in MEM_WB completed (R83). -/
theorem writeBack_reg_eq_committed (s : State) (r : Reg) : (writeBack s.memWb s).reg r = committed s r := by
  rw [writeBack_reg]
  unfold committed result
  by_cases h : s.memWb.present = true ∧ s.memWb.dest ≠ 0 ∧ s.memWb.dest = r
  · rw [if_pos h, if_pos ⟨h.1, h.2.1, h.2.2.symm⟩]
  · rw [if_neg h, if_neg (fun k => h ⟨k.1, k.2.1, k.2.2.symm⟩)]

/-- The sequential machine runs exactly while `pc < 4*N` (R110). -/
theorem SeqState.stopped_eq_false_iff (a : SeqState) : a.stopped = false ↔ a.pc.toNat < 4 * a.imem.length := by
  simp [SeqState.stopped]

/-- A stopped sequential machine does not move (R110). -/
theorem seqStep_of_stopped {a : SeqState} (h : a.stopped = true) : seqStep a = .ok a := if_pos h

/-- A running sequential machine executes the instruction at `pc` (R110). -/
theorem seqStep_of_running {a : SeqState} (h : a.stopped = false) :
    seqStep a = a.perform (decodeFields (a.imem.getD (a.pc.toNat / 4) 0)) := by
  rw [seqStep, h]; rfl

/-- However long a stopped sequential machine runs on, it does not move (R110). -/
theorem seqRun_of_stopped {a : SeqState} (h : a.stopped = true) (k : Nat) : seqRun k a = .ok a := by
  induction k with
  | zero => rfl
  | succ k ih => rw [seqRun, seqStep_of_stopped h]; exact ih

/-- One cycle of a run. -/
theorem steps_succ (k : Nat) (s : State) :
    steps (k + 1) s = (match step s with | .next t => steps k t | .fault r => .fault r | .refused r => .refused r) := by
  have h : Sys2Proof.core.step s = step s := rfl
  unfold steps
  simp only [Host.Core.run]
  rw [h]
  cases step s <;> rfl

/-- The step that starts a run with a next state. -/
theorem steps_succ_next {k : Nat} {s u : State} (h : steps (k + 1) s = .next u) :
    ∃ t, step s = .next t ∧ steps k t = .next u := by
  rw [steps_succ] at h
  cases hs : step s with
  | next t => rw [hs] at h; exact ⟨t, rfl, h⟩
  | fault r => cases r
  | refused r => rw [hs] at h; cases h

end Sys2Proof.Machine
end

