-- ==== Sys2Proof/Laws/Step.lean ====
section
/-! SUPPORT. `exec` and `step` as clock cycles: every proof about them starts here and goes on with `cycle_next_iff` and
the lemmas of Laws/Stages.lean. -/

namespace Sys2Proof.Machine

/-- Every meaning is the clock cycle with the instruction's fields (R56) in Decode. -/
theorem exec_eq_cycleDecoding (i : Instr) (s : State) : exec i s = cycleDecoding i.fields s := by
  cases i <;> rfl

/-- What Decode does in the cycle that starts in `s` (R94, R96). -/
def decodePart (s : State) : State → State :=
  if s.ifId.present then decodeStage (decodeFields s.ifId.instr) s.ifId s.idEx else decodeEmpty

/-- A step is one clock cycle (R81). -/
theorem step_eq_cycle (s : State) : step s = cycle (decodePart s) s := by
  unfold step decodePart decodeFields
  by_cases hp : s.ifId.present = true
  · rw [if_pos hp, if_pos hp]
    cases decode s.ifId.instr with
    | ok i => exact exec_eq_cycleDecoding i s
    | error e => rfl
  · rw [if_neg hp, if_neg hp]
    rfl

/-- A step with an instruction in IF_ID, recognized or not. -/
theorem step_of_present {s : State} (h : s.ifId.present = true) :
    step s = cycleDecoding (decodeFields s.ifId.instr) s := by
  rw [step_eq_cycle, decodePart, if_pos h]; rfl

/-- Everything a step with a next state does. -/
theorem step_next_iff {s t : State} :
    step s = .next t ↔ ∃ mw m, memoryStage s.dmemMisaligned s.exMem s.dmem = .ok (mw, m) ∧
      t = fetch (decodePart s (beforeDecode s mw m)) := by
  rw [step_eq_cycle, cycle_next_iff]

/-- Everything an instruction's cycle with a next state does. -/
theorem exec_next_iff {i : Instr} {s t : State} :
    exec i s = .next t ↔ ∃ mw m, memoryStage s.dmemMisaligned s.exMem s.dmem = .ok (mw, m) ∧
      t = fetch (decodeStage i.fields s.ifId s.idEx (beforeDecode s mw m)) := by
  rw [exec_eq_cycleDecoding, cycleDecoding, cycle_next_iff]

/-- Decode leaves alone what only the other stages write. -/
theorem decodePart_keeps (s u : State) :
    (decodePart s u).x = u.x ∧ (decodePart s u).dmem = u.dmem ∧ (decodePart s u).cycleCount = u.cycleCount ∧
    (decodePart s u).exMem = u.exMem ∧ (decodePart s u).memWb = u.memWb ∧ (decodePart s u).imem = u.imem ∧
    (decodePart s u).dmemMisaligned = u.dmemMisaligned := by
  unfold decodePart
  split <;> simp

end Sys2Proof.Machine
end

