-- ==== Sys2Proof/Tests/Slice0.lean ====
section
/-! SUPPORT. The model's own tests. Expected values come from spec/ (95_test_vectors.md, the worked decodes of 30_encoding.md
section 4, the rules named), never from the model. The theorems named `witness_<Obligation>` show concrete states and
operands that meet all hypotheses of that obligation together, clause by clause. -/

namespace Sys2Proof.Tests

open Sys2Proof Sys2Proof.Machine

/-! ### States -/

/-- The state a step answers, for a step that answers one. -/
def after (o : Host.Outcome State Fault Refusal) : State :=
  match o with
  | .next t => t
  | .fault _ => State.reset
  | .refused _ => State.reset

/-- The step answers a next state. -/
def isNext (o : Host.Outcome State Fault Refusal) : Bool :=
  match o with
  | .next _ => true
  | .fault _ => false
  | .refused _ => false

theorem eq_next_of_isNext {o : Host.Outcome State Fault Refusal} (h : isNext o = true) : o = .next (after o) := by
  cases o <;> first | rfl | cases h

/-- A present latch past Decode. -/
def latch (op : Op) (pc : Word) (rs rt rd : Reg) (imm : Word) (dest : Reg) : Latch :=
  { bubble with present := true, pc := pc, op := op, rs := rs, rt := rt, rd := rd, imm := imm, dest := dest }

/-- After reset, with the program `ws` and the registers `r8`, `r9`. -/
def start (ws : List Word) (r8 r9 : Word) : State := (({ State.reset with imem := ws }).setReg 8 r8).setReg 9 r9

/-- `start`, with the word `w` just fetched at address 0 and nothing else in the pipeline. -/
def decoding (w r8 r9 : Word) : State := { start [w] r8 r9 with ifId := fetchedLatch 0 w, pc := 4 }

/-- A full pipeline: `addi $t0, $zero, 5` in MEM_WB, `lw $t1, 0($zero)` in EX_MEM, `add $t2, $t0, $t0` in ID_EX,
`sw $t1, 4($zero)` in IF_ID, a fifth word to fetch. -/
def full : State :=
  { start [0x20080005, 0x8C090000, 0x01085020, 0xAC090004, 0x00000000] 0 0 with
    pc := 16
    ifId := fetchedLatch 12 0xAC090004
    idEx := latch .ADD 8 8 8 10 0 10
    exMem := latch .LW 4 0 9 0 0 9
    memWb := { latch .ADDI 0 0 8 0 5 8 with aluResult := 5 } }

/-- A `lw $t1, 0($zero)` in ID_EX and the word `w`, fetched at 4, in IF_ID. -/
def behindLoad (w : Word) : State :=
  { start [0x8C090000, w] 3 4 with
    pc := 8, ifId := fetchedLatch 4 w, idEx := { latch .LW 0 0 9 0 0 9 with rtValue := 4 } }

/-- A present latch with `op` in EX_MEM, with the ALU result `a`. -/
def accessing (p : DmemMisaligned) (op : Op) (a : Word) : State :=
  { State.reset with dmemMisaligned := p, exMem := { bubble with present := true, op := op, aluResult := a, storeValue := 7 } }

/-- A present latch with `op` in ID_EX. -/
def executing (op : Op) : State := { State.reset with idEx := latch op 0 1 2 0 4 0 }

/-- Nothing in the pipeline or left to fetch, but for a word in IF_ID. -/
def lone : State := { decoding 0 100 7 with dmem := [(104, 21)] }

/-- `addi $t0, $zero, 5` about to write back, nothing else left. -/
def draining : State :=
  { start [0x20080005] 0 0 with pc := 4, memWb := { latch .ADDI 0 0 8 0 5 8 with aluResult := 5 } }

/-! ### WellFormed smoke test: an ill-formed term for each check -/

theorem test_wf_refuses_addi : (Instr.addi 8 0 0x8000).wellFormed = false := by decide
theorem test_wf_refuses_lw : (Instr.lw 8 0 0xFFFF7FFF).wellFormed = false := by decide
theorem test_wf_refuses_sw : (Instr.sw 8 0 0x10000).wellFormed = false := by decide
theorem test_wf_refuses_beq : (Instr.beq 8 9 0x8000).wellFormed = false := by decide
theorem test_wf_refuses_sll : (Instr.sll 8 9 32).wellFormed = false := by decide
theorem test_wf_refuses_j_unaligned : (Instr.j 2).wellFormed = false := by decide
theorem test_wf_refuses_j_far : (Instr.j 0x10000000).wellFormed = false := by decide

/-! ### Decoding words written out bit by bit (R51 to R53, R55; 30_encoding.md section 4, V1) -/

/-- `add $t1, $t0, $t0`: opcode 0, rs 8, rt 8, rd 9, shamt 0, funct 0x20. -/
theorem test_decode_add : decode 0b000000_01000_01000_01001_00000_100000 = .ok (.add 9 8 8) := by decide
/-- `sub $t2, $t0, $t1`: funct 0x22. -/
theorem test_decode_sub : decode 0b000000_01000_01001_01010_00000_100010 = .ok (.sub 10 8 9) := by decide
/-- `sll $t1, $t0, 2`: the source in bits 20:16, funct 0. -/
theorem test_decode_sll : decode 0b000000_00000_01000_01001_00010_000000 = .ok (.sll 9 8 2) := by decide
/-- `addi $t0, $zero, -32768`: opcode 0x08. -/
theorem test_decode_addi : decode 0b001000_00000_01000_1000000000000000 = .ok (.addi 8 0 0xFFFF8000) := by decide
/-- `lw $t0, 0($zero)`: opcode 0x23. -/
theorem test_decode_lw : decode 0b100011_00000_01000_0000000000000000 = .ok (.lw 8 0 0) := by decide
/-- `sw $ra, 4($sp)`: opcode 0x2B, 0xAFBF0004. -/
theorem test_decode_sw : decode 0b101011_11101_11111_0000000000000100 = .ok (.sw 31 29 4) := by decide
/-- `beq $t0, $t1, -3`: opcode 0x04. -/
theorem test_decode_beq : decode 0b000100_01000_01001_1111111111111101 = .ok (.beq 8 9 0xFFFFFFFD) := by decide
/-- `j 2^28 - 4`: opcode 0x02, 0x0BFFFFFF. -/
theorem test_decode_j : decode 0b000010_11111111111111111111111111 = .ok (.j 0x0FFFFFFC) := by decide

/-- The words of section 4 and V1 that select no row. -/
theorem test_decode_unrecognized :
    [0x01084860, 0x00200000, 0x0000000C, 0xFFFFFFFF, 0x03E00000, 0x000007E0, 0x00000021, 0x24080005, 0x14000001,
      0x0C000003].all (fun w => decodeFields w == ⟨.OTHER, 0, 0, 0, 0, 0⟩) = true := by decide

/-- The two no-ops of section 4 and V1: `sll` with `rd = 0`, source 31 in V1's third word. -/
theorem test_decode_noops :
    decodeFields 0x00000000 = ⟨.SLL, 0, 0, 0, 0, 0⟩ ∧ decodeFields 0x00000040 = ⟨.SLL, 0, 0, 0, 1, 0⟩ ∧
    decodeFields 0x001F0000 = ⟨.SLL, 31, 0, 0, 0, 0⟩ := by decide

/-- The encoder gives the words of the table of R77, as in the examples of R120 to R143. -/
theorem test_encode_examples :
    encode (.add 9 8 8) = 0x01084820 ∧ encode (.sub 10 8 9) = 0x01095022 ∧ encode (.addi 8 0 5) = 0x20080005 ∧
    encode (.sll 9 8 2) = 0x00084880 ∧ encode (.lw 8 0 0) = 0x8C080000 ∧ encode (.sw 8 0 0) = 0xAC080000 ∧
    encode (.beq 0 0 1) = 0x10000001 ∧ encode (.j 12) = 0x08000003 := by decide

/-- The opcode table's numbering: bit 0 is the least significant bit of the one 32-bit word. -/
theorem test_table_word :
    decodeTableWord 32 0x8C080000 = some (.lw 8 0 0) ∧ decodeTableWord 32 0x0000000C = none := by decide

/-- After reset, with a word placed where it is fetched, the next step is the meaning of its instruction. -/
theorem test_with_fetch_word :
    (State.reset.withFetchWord 32 0x20080005).ifId.present = true ∧
    (after (step (State.reset.withFetchWord 32 0x20080005))).idEx = latch .ADDI 0 0 8 0 5 8 := by decide

/-! ### One step per instruction: the cycle in which it is in Decode, then Execute (V2), Memory, Write-back -/

/-- R102: `add $t1, $t0, $t0` passes Decode with the values read. -/
theorem test_add_passes :
    (after (exec (.add 9 8 8) (decoding 0x01084820 5 0))).idEx =
      { latch .ADD 0 8 8 9 0 9 with rsValue := 5, rtValue := 5 } := by decide
/-- V2: 0x7FFFFFFF + 1, 0xFFFFFFFF + 1. -/
theorem test_add_wraps : alu .ADD 0x7FFFFFFF 1 0 = 0x80000000 ∧ alu .ADD 0xFFFFFFFF 1 0 = 0 := by decide
/-- R121: `sub $t2, $t0, $t1` passes Decode with minuend `rs` and subtrahend `rt`. -/
theorem test_sub_passes :
    (after (exec (.sub 10 8 9) (decoding 0x01095022 7 10))).idEx =
      { latch .SUB 0 8 9 10 0 10 with rsValue := 7, rtValue := 10 } := by decide
/-- V2: 7 - 10, 0x80000000 - 1. -/
theorem test_sub_wraps : alu .SUB 7 10 0 = 0xFFFFFFFD ∧ alu .SUB 0x80000000 1 0 = 0x7FFFFFFF := by decide
/-- R122: `rt` is the destination; V4: it is not tested for a hazard. -/
theorem test_addi_rt_no_hazard :
    (after (exec (.addi 9 8 1) (behindLoad 0x21090001))).stallAsserted = false ∧
    (after (exec (.addi 9 8 1) (behindLoad 0x21090001))).idEx =
      { latch .ADDI 4 8 9 0 1 9 with rsValue := 3, rtValue := 4 } := by decide
/-- V2: 0x80000000 + (-1). -/
theorem test_addi_wraps : alu .ADDI 0x80000000 0 0xFFFFFFFF = 0x7FFFFFFF := by decide
/-- R58, R123: the source travels in `rs`, latch `rt` is 0. -/
theorem test_sll_passes :
    (after (exec (.sll 9 8 2) (decoding 0x00084880 0x40000003 0))).idEx =
      { latch .SLL 0 8 0 9 2 9 with rsValue := 0x40000003 } := by decide
/-- V2: the five rows of `SLL`. -/
theorem test_sll_shifts :
    alu .SLL 0x40000003 0 2 = 0xC ∧ alu .SLL 0xFFFFFFFF 0 31 = 0x80000000 ∧ alu .SLL 0x89ABCDEF 0 0 = 0x89ABCDEF ∧
    alu .SLL 1 0 31 = 0x80000000 ∧ alu .SLL 0x00007FFF 0 16 = 0x7FFF0000 := by decide
/-- R130: a `lw` of a stored word in the Memory stage (`lw $t0, 0($zero)`, `DMEM[0] = 21`). -/
theorem test_lw_reads :
    (after (step { accessing .refuse .LW 0 with dmem := [(0, 21)] })).memWb.loadedValue = 21 := by decide
/-- R85: Write-back takes the loaded value of a `LW`, not its address. -/
theorem test_lw_writes_back :
    (after (step { State.reset with memWb := { latch .LW 0 0 8 0 100 8 with aluResult := 100, loadedValue := 21 } })).reg 8
      = 21 := by decide
/-- R131: a `sw` in the Memory stage. -/
theorem test_sw_stores :
    memRead .refuse (after (step (accessing .refuse .SW 64))).dmem 64 = .ok 7 ∧
    memRead .refuse (after (step (accessing .refuse .SW 64))).dmem 68 = .ok 0 := by decide
/-- R91 (R131's corner case): a `sw` stores the value forwarded from EX_MEM, not the stale one. -/
theorem test_sw_forwards :
    (after (step { State.reset with
      idEx := latch .SW 4 0 8 0 0 0, exMem := { latch .ADDI 0 0 8 0 7 8 with aluResult := 7 } })).exMem.storeValue = 7 := by
  decide
/-- R141: `beq $zero, $zero, skip` at address 0 with offset 1: the target 8 is fetched in the same cycle. -/
theorem test_beq_taken :
    (after (exec (.beq 0 0 1) { start [0x10000001, 0x20080063, 0x20090001] 0 0 with
      pc := 4, ifId := fetchedLatch 0 0x10000001 })).ifId = fetchedLatch 8 0x20090001 := by decide
/-- R142, program P4: the `beq` one slot behind `addi $t0, $zero, 1` compares the stale 0 and is taken. -/
theorem test_beq_stale :
    (after (exec (.beq 8 0 1) { start [0x20080001, 0x11000001, 0x20090005, 0x200A0009] 0 0 with
      pc := 8, ifId := fetchedLatch 4 0x11000001, idEx := latch .ADDI 0 0 8 0 1 8 })).ifId
      = fetchedLatch 12 0x200A0009 := by decide
/-- V10 (b): `j 64` beyond the program: `pc` is 64, IF_ID a bubble. -/
theorem test_j_out_of_program :
    (after (exec (.j 64) (decoding 0x08000010 0 0))).pc = 64 ∧
    (after (exec (.j 64) (decoding 0x08000010 0 0))).ifId = bubble := by decide
/-- R143: a `j` is never stalled (V4: J excluded). -/
theorem test_j_never_stalls : (after (exec (.j 0) (behindLoad 0x08000000))).stallAsserted = false := by decide
/-- R150: an unrecognized word passes Decode as a present `OTHER`. -/
theorem test_other_passes :
    (after (step (decoding 0xFFFFFFFF 5 6))).idEx = latch .OTHER 0 0 0 0 0 0 := by decide

/-! ### Units -/

/-- V3, rows 1 to 5, 8 and 9. -/
theorem test_forwarding :
    let f (op : Op) (dest : Reg) (a v : Word) : Latch := { bubble with op := op, dest := dest, aluResult := a, loadedValue := v }
    forward 8 0 (f .ADDI 8 5 0) bubble = 5 ∧ forward 8 0 bubble (f .ADDI 8 5 0) = 5 ∧
    forward 8 0 bubble (f .LW 8 100 21) = 21 ∧ forward 8 3 (f .ADDI 8 2 0) (f .ADDI 8 1 0) = 2 ∧
    forward 8 3 (f .ADDI 9 2 0) (f .ADDI 10 1 0) = 3 ∧ forward 0 0 (f .SW 0 64 0) (f .BEQ 0 0 0) = 0 ∧
    forward 8 3 (f .LW 8 100 0) bubble = 100 ∧ forward 9 7 (f .ADDI 8 5 0) (f .LW 9 40 0) = 0 := by decide

/-- V4, all rows. -/
theorem test_hazard :
    let d (op : Op) (rs rt : Reg) : Decoded := ⟨op, rs, rt, 0, 0, 0⟩
    let la (op : Op) (dest : Reg) : Latch := { bubble with op := op, dest := dest }
    [d .ADD 8 8, d .ADD 9 8, d .SUB 9 8, d .SW 9 8, d .SW 8 9, d .BEQ 9 8, d .ADDI 8 9, d .LW 8 9, d .SLL 8 0].all
      (fun x => hazard x (la .LW 8)) = true ∧
    [d .ADDI 9 8, d .LW 9 8, d .J 0 0, d .OTHER 0 0].all (fun x => !hazard x (la .LW 8)) = true ∧
    hazard (d .ADD 8 8) (la .ADDI 8) = false ∧ hazard (d .ADD 8 8) (la .NONE 0) = false ∧
    hazard (d .ADD 0 0) (la .LW 0) = false ∧ hazard (d .ADD 8 8) (la .LW 9) = false := by decide

/-- V5, all rows. -/
theorem test_fetch :
    let s (st : Bool) (pc : Word) : State :=
      { start [1, 2, 3] 0 0 with stallAsserted := st, pc := pc, ifId := fetchedLatch 4 2 }
    (fetch (s true 8)) = s true 8 ∧
    (fetch (s false 8)).ifId = fetchedLatch 8 3 ∧ (fetch (s false 8)).pc = 12 ∧
    (fetch (s false 12)).ifId = bubble ∧ (fetch (s false 12)).pc = 12 ∧
    (fetch (s false 0xFFFFFFF8)).ifId = bubble ∧ (fetch (s false 0xFFFFFFF8)).pc = 0xFFFFFFF8 := by decide

/-- R36: an unaligned access under the three values of the parameter; under `exact_key` address 2 overlaps neither 0
nor 4. -/
theorem test_misaligned :
    let m : Mem := Mem.writeWord [] 0 0x11223344
    memRead .refuse m 2 = .error (.dmemMisaligned 2) ∧ memRead .truncate m 2 = .ok 0x11223344 ∧
    memRead .exactKey m 2 = .ok 0 := by decide

/-! ### The assembler (R65 to R77) -/

/-- R66, R70: `beq $zero, $zero, e` before the label `e` at 8; R75: a line that cannot be decoded keeps its address. -/
theorem test_assemble_branch :
    assemble "beq $zero,$zero,e\nfoo\ne: j e".toList = .ok [0x10000001, 0xFFFFFFFF, 0x08000002] := by decide +kernel
/-- R69: the two syntaxes of `lw`. -/
theorem test_assemble_lw :
    assemble "lw $t0, 4($t1) # c\n\nlw $t0,$t1,4".toList = .ok [0x8D280004, 0x8D280004] := by decide +kernel
/-- R69 leaves these open; what log 12 says of them. -/
theorem test_split_paren_choice :
    splitParen "4(($t1)".toList = some ("4".toList, "($t1".toList) ∧ parseReg "($t1".toList = 0 ∧
    splitParen "4()".toList = none ∧ splitParen "4($t1)x".toList = none := by decide +kernel
/-- R74: a literal outside its range; R66: a label bound twice. -/
theorem test_assemble_refuses :
    assemble "addi $t0,$t0,32768".toList = .error .literalOutOfRange ∧
    assemble "a:\na: j 0".toList = .error .duplicateLabel := by decide +kernel

/-- R74: a literal `beq` offset and `j` address at the end of their ranges, and past it. -/
theorem test_assemble_literal_targets :
    assemble "beq $t0,$t1,-32768\nj 268435452".toList = .ok [0x11098000, 0x0BFFFFFF] ∧
    assemble "beq $t0,$t1,32768".toList = .error .literalOutOfRange ∧
    assemble "j 6".toList = .error .badJumpAddress := by decide +kernel

/-! ### The sequential machine (R110) -/

/-- R110: it stops at `pc >= 4*N`, here one instruction after `addi $t0, $zero, 5` at 0, and then stays. -/
theorem test_sequential_stops :
    let a : SeqState := ⟨State.reset.x, [], 0, [0x20080005], .refuse⟩
    seqRun 1 a = .ok ⟨a.x.set 8 5, [], 4, [0x20080005], .refuse⟩ ∧ seqRun 2 a = seqRun 1 a ∧ a.stopped = false := by decide

/-! ### Witnesses: encoding -/

theorem witness_DecodeInvertsEncode :
    [Instr.add 0 31 31, .sub 31 0 31, .sll 31 31 31, .sll 0 0 0, .addi 31 0 0x7FFF, .addi 0 31 0xFFFF8000,
      .lw 31 0 0x7FFF, .lw 0 31 0xFFFF8000, .sw 31 0 0x7FFF, .sw 0 31 0xFFFF8000, .beq 31 0 0x7FFF,
      .beq 0 31 0xFFFF8000, .j 0, .j 0x0FFFFFFC].all Instr.wellFormed = true := by decide

theorem witness_EncodeInvertsDecode :
    decode 0x20087FFF = .ok (.addi 8 0 0x7FFF) ∧ decode 0x0BFFFFFF = .ok (.j 0x0FFFFFFC) ∧
    decode 0x000007C0 = .ok (.sll 0 0 31) := by decide

theorem witness_EncodedWordsFollowTable :
    WellFormed (.sll 31 31 31) ∧ WellFormed (.sll 0 0 0) ∧ WellFormed (.j 0x0FFFFFFC) ∧ WellFormed (.j 0) := by decide

theorem witness_OpcodeRowsExclusive :
    rowSll ∈ opcodeMap ∧ rowSll.selects 0x000007C0 = true ∧ rowJ ∈ opcodeMap ∧ rowJ.selects 0x0BFFFFFF = true := by decide

theorem witness_DecoderRoutesFields :
    (0x03FFF820 : Word) &&& 0xFC0007FF = 0x00000020 ∧ (0x03FFF822 : Word) &&& 0xFC0007FF = 0x00000022 ∧
    (0x001FFFC0 : Word) &&& 0xFFE0003F = 0x00000000 ∧ (0x23FFFFFF : Word) &&& 0xFC000000 = 0x20000000 ∧
    (0x8FFFFFFF : Word) &&& 0xFC000000 = 0x8C000000 ∧ (0xAFFFFFFF : Word) &&& 0xFC000000 = 0xAC000000 ∧
    (0x13FFFFFF : Word) &&& 0xFC000000 = 0x10000000 ∧ (0x0BFFFFFF : Word) &&& 0xFC000000 = 0x08000000 := by decide

theorem witness_UnselectedWordsAreOther :
    (∀ r ∈ opcodeMap, r.selects 0xFFFFFFFF = false) ∧ (∀ r ∈ opcodeMap, r.selects 0x000007E0 = false) ∧
    rowAdd ∈ opcodeMap ∧ rowAdd.selects 0x00000020 = true := by decide

/-! ### Witnesses: the step -/

theorem witness_StepRunsDecodedInstruction :
    (full.ifId.present = true ∧ decode full.ifId.instr = .ok (.sw 9 0 4)) ∧
    ((decoding 0xFFFFFFFF 0 0).ifId.present = true ∧
      decode (decoding 0xFFFFFFFF 0 0).ifId.instr = .error (.unrecognized 0xFFFFFFFF)) ∧
    State.reset.ifId.present = false := by decide

theorem witness_CycleDefinedUnlessMisaligned :
    (accessDefined full ∧ accessDefined (accessing .refuse .SW 0xFFFFFFFC) ∧ accessDefined (accessing .exactKey .LW 3) ∧
      accessDefined (accessing .refuse .ADD 3)) ∧
    (¬ accessDefined (accessing .refuse .LW 1) ∧ ¬ accessDefined (accessing .refuse .SW 0xFFFFFFFF)) :=
  ⟨⟨by decide, by decide, by decide, by decide⟩, by decide, by decide⟩

theorem full_next : step full = .next (after (step full)) := eq_next_of_isNext (by decide)

theorem reset_next : step State.reset = .next (after (step State.reset)) := eq_next_of_isNext (by decide)

theorem witness_CycleCounterCounts :
    HostOp.reset ≠ .step ∧ hostDo .reset full = .next (resetOp full) ∧ HostOp.loadWords [1] ≠ .step ∧
    hostDo (.loadWords [1]) full = .next { resetOp full with imem := [1] } ∧ step full = .next (after (step full)) :=
  ⟨by decide, rfl, by decide, rfl, full_next⟩

theorem witness_StallFlagFollowsHazard :
    step full = .next (after (step full)) ∧ step (behindLoad 0x01295020) = .next (after (step (behindLoad 0x01295020))) ∧
    (after (step full)).stallAsserted = false ∧ (after (step (behindLoad 0x01295020))).stallAsserted = true :=
  ⟨full_next, eq_next_of_isNext (by decide), by decide, by decide⟩

theorem witness_WriteBackWritesDestination :
    step full = .next (after (step full)) ∧ full.memWb.present = true ∧ full.memWb.dest ≠ 0 ∧ full.memWb.dest = 8 :=
  ⟨full_next, by decide, by decide, by decide⟩

theorem witness_MemoryStagePassesBubble : State.reset.exMem.present = false := by decide

theorem witness_MemoryStageAccesses :
    (full.exMem.present = true ∧ full.exMem.op = .LW ∧ step full = .next (after (step full))) ∧
    ((accessing .refuse .SW 4).exMem.present = true ∧ (accessing .refuse .SW 4).exMem.op = .SW ∧
      opsOk (accessing .refuse .SW 4) ∧ step (accessing .refuse .SW 4) = .next (after (step (accessing .refuse .SW 4)))) ∧
    ((accessing .refuse .ADD 4).exMem.present = true ∧ (accessing .refuse .ADD 4).exMem.op ≠ .LW ∧
      (accessing .refuse .ADD 4).exMem.op ≠ .SW ∧ (accessing .refuse .ADD 4).exMem.loadedValue = 0 ∧
      step (accessing .refuse .ADD 4) = .next (after (step (accessing .refuse .ADD 4)))) :=
  ⟨⟨by decide, by decide, full_next⟩, ⟨by decide, by decide, by decide, eq_next_of_isNext (by decide)⟩,
    by decide, by decide, by decide, by decide, eq_next_of_isNext (by decide)⟩

theorem witness_ExecuteResolvesOperands :
    ([Op.ADD, .SUB, .ADDI, .LW, .SW, .SLL, .BEQ, .OTHER].all fun op =>
      isNext (step (executing op)) && (executing op).idEx.present && (executing op).idEx.op == op) = true ∧
    step State.reset = .next (after (step State.reset)) ∧ State.reset.idEx.present = false ∧
    (5 = if full.exMem.dest ≠ 0 ∧ full.exMem.dest = full.idEx.rs then full.exMem.aluResult
         else if full.memWb.dest ≠ 0 ∧ full.memWb.dest = full.idEx.rs then
           (if full.memWb.op = .LW then full.memWb.loadedValue else full.memWb.aluResult)
         else full.idEx.rsValue) ∧
    step full = .next (after (step full)) :=
  ⟨by decide, reset_next, by decide, by decide, full_next⟩

theorem witness_RegisterZeroIsHardwired :
    (8 : Reg) ≠ 0 ∧ (9 : Reg) ≠ 8 ∧ step full = .next (after (step full)) ∧ (after (step full)).reg 8 ≠ full.reg 8 :=
  ⟨by decide, by decide, full_next, by decide⟩

theorem witness_LoadUseStallsDecode :
    accessDefined (behindLoad 0x21280000) ∧ (behindLoad 0x21280000).idEx.op = .LW ∧ (behindLoad 0x21280000).idEx.dest ≠ 0 ∧
    ((behindLoad 0x21280000).ifId.present = true ∧ decode (behindLoad 0x21280000).ifId.instr = .ok (.addi 8 9 0)) ∧
    ((Instr.addi 8 9 0).fields.op ≠ .J ∧ (Instr.addi 8 9 0).fields.rs = (behindLoad 0x21280000).idEx.dest) ∧
    ((Instr.sw 9 0 0).fields.op ∈ [Op.ADD, Op.SUB, Op.BEQ, Op.SW] ∧
      (Instr.sw 9 0 0).fields.rt = (behindLoad 0x21280000).idEx.dest) := by decide

theorem witness_FetchFollowsDecode :
    (step (behindLoad 0x01295020) = .next (after (step (behindLoad 0x01295020))) ∧
      (after (step (behindLoad 0x01295020))).stallAsserted = true) ∧
    (step full = .next (after (step full)) ∧ (after (step full)).stallAsserted = false ∧
      ((redirect full).getD full.pc).toNat < 4 * full.imem.length) ∧
    (step (decoding 0x08000001 0 0) = .next (after (step (decoding 0x08000001 0 0))) ∧
      (after (step (decoding 0x08000001 0 0))).stallAsserted = false ∧ redirect (decoding 0x08000001 0 0) = some 4 ∧
      4 * (decoding 0x08000001 0 0).imem.length ≤ (4 : Word).toNat) ∧
    (step (decoding 0x1000FFFF 0 0) = .next (after (step (decoding 0x1000FFFF 0 0))) ∧
      (after (step (decoding 0x1000FFFF 0 0))).stallAsserted = false ∧ redirect (decoding 0x1000FFFF 0 0) = some 0 ∧
      (0 : Word).toNat < 4 * (decoding 0x1000FFFF 0 0).imem.length) :=
  ⟨⟨eq_next_of_isNext (by decide), by decide⟩, ⟨full_next, by decide, by decide⟩,
    ⟨eq_next_of_isNext (by decide), by decide, by decide, by decide⟩,
    eq_next_of_isNext (by decide), by decide, by decide, by decide⟩

theorem witness_EmptyDecodePassesBubble :
    (State.reset.ifId.present = false ∧ step State.reset = .next (after (step State.reset))) ∧
    ((start [0] 0 0).ifId.present = false ∧ step (start [0] 0 0) = .next (after (step (start [0] 0 0))) ∧
      (start [0] 0 0).pc.toNat < 4 * (start [0] 0 0).imem.length) :=
  ⟨⟨by decide, reset_next⟩, by decide, eq_next_of_isNext (by decide), by decide⟩

theorem witness_StallLastsOneCycle :
    step (behindLoad 0x01295020) = .next (after (step (behindLoad 0x01295020))) ∧
    (after (step (behindLoad 0x01295020))).stallAsserted = true ∧
    step (after (step (behindLoad 0x01295020))) = .next (after (step (after (step (behindLoad 0x01295020))))) :=
  ⟨eq_next_of_isNext (by decide), by decide, eq_next_of_isNext (by decide)⟩

theorem witness_QuiescentStateIsFinal :
    quiescent State.reset = true ∧ quiescent { start [0x08000001] 1 2 with pc := 4, stallAsserted := true } = true ∧
    quiescent { start [0] 0 0 with pc := 0xFFFFFFF8 } = true := by decide

/-! ### Witnesses: reset and load -/

theorem witness_ResetValues :
    resetOp full = resetOp full ∧ loadWords [0x20080005] full = .next { resetOp full with imem := [0x20080005] } :=
  ⟨rfl, rfl⟩

theorem witness_ResetIsIdempotent :
    full.imem = (after (step full)).imem ∧ full.dmemMisaligned = (after (step full)).dmemMisaligned ∧
    full ≠ after (step full) := by decide

theorem witness_FirstStepFetchesWordZero : ([0x20080005] : List Word).length ≤ 2 ^ 30 - 1 := by decide

/-! ### Witnesses: invariants -/

theorem full_inv : PipelineInv full :=
  ⟨by decide, by decide, by decide, by decide, by decide, by decide⟩

theorem full_linked : Linked full := by decide

theorem behindLoad_inv : PipelineInv (behindLoad 0x01295020) :=
  ⟨by decide, by decide, by decide, by decide, by decide, by decide⟩

theorem draining_inv : PipelineInv draining :=
  ⟨by decide, by decide, by decide, by decide, by decide, by decide⟩

theorem witness_StepKeepsPipelineInvariants :
    (PipelineInv full ∧ step full = .next (after (step full))) ∧
    (PipelineInv (behindLoad 0x01295020) ∧
      step (behindLoad 0x01295020) = .next (after (step (behindLoad 0x01295020)))) :=
  ⟨⟨full_inv, full_next⟩, behindLoad_inv, eq_next_of_isNext (by decide)⟩

theorem witness_ResetAndLoadMeetInvariants :
    loadWords [0x20080005] full = .next { resetOp full with imem := [0x20080005] } := rfl

theorem witness_StepKeepsLatchLinks :
    (Linked full ∧ step full = .next (after (step full))) ∧
    (Linked (behindLoad 0x01295020) ∧
      step (behindLoad 0x01295020) = .next (after (step (behindLoad 0x01295020)))) :=
  ⟨⟨full_linked, full_next⟩, by decide, eq_next_of_isNext (by decide)⟩

theorem witness_StepKeepsMemoryCanonical :
    ({ accessing .refuse .SW 4 with dmem := [(0, 1), (8, 2)] } : State).dmem.wf = true ∧
    step { accessing .refuse .SW 4 with dmem := [(0, 1), (8, 2)] } =
      .next (after (step { accessing .refuse .SW 4 with dmem := [(0, 1), (8, 2)] })) :=
  ⟨by decide, eq_next_of_isNext (by decide)⟩

theorem witness_ProgramStoreIsImmutable :
    step full = .next (after (step full)) ∧ exec (.add 1 2 3) full = .next (after (exec (.add 1 2 3) full)) ∧
    hostDo (.loadWords [1]) full = .next { resetOp full with imem := [1] } ∧
    ({ resetOp full with imem := [1] } : State).imem ≠ full.imem :=
  ⟨full_next, eq_next_of_isNext (by decide), rfl, by decide⟩

/-! ### Witnesses: frames and memory -/

theorem witness_InstructionCycleFrame :
    (exec (.beq 8 9 1) full = .next (after (exec (.beq 8 9 1) full)) ∧
      ¬ (full.memWb.present = true ∧ full.memWb.dest = 9) ∧
      ¬ (full.exMem.present = true ∧ full.exMem.op = .SW)) ∧
    (exec (.j 0) (accessing .refuse .SW 4) = .next (after (exec (.j 0) (accessing .refuse .SW 4))) ∧
      (accessing .refuse .SW 4).exMem.present = true ∧ (accessing .refuse .SW 4).exMem.op = .SW ∧
      resolveAddr (accessing .refuse .SW 4).dmemMisaligned (accessing .refuse .SW 4).exMem.aluResult = .ok 4 ∧
      ((3 < 4 ∨ 4 + 4 ≤ 3) ∧ (8 < 4 ∨ 4 + 4 ≤ 8))) :=
  ⟨⟨eq_next_of_isNext (by decide), by decide, by decide⟩, eq_next_of_isNext (by decide), by decide, by decide, by decide,
    by decide⟩

theorem witness_DecodeTouchesFrontEndOnly :
    exec (.j 0) full = .next (after (exec (.j 0) full)) ∧ exec (.add 1 2 3) full = .next (after (exec (.add 1 2 3) full)) :=
  ⟨eq_next_of_isNext (by decide), eq_next_of_isNext (by decide)⟩

theorem witness_LoadReadsLastStore :
    Mem.wf [(0, 1), (8, 2)] = true ∧ aligned 0xFFFFFFFC = true ∧ aligned 0 = true ∧ (0 : Word) ≠ 0xFFFFFFFC := by decide

theorem witness_MisalignedAccessFollowsParameter :
    Mem.wf [(0, 1), (8, 2)] = true ∧ (1 : Word).toNat % 4 ≠ 0 ∧ (0xFFFFFFFF : Word).toNat % 4 ≠ 0 ∧
    (0 : Word) ≠ 1 ∧ (0xFFFFFFFC : Word) ≠ 0xFFFFFFFF := by decide

/-! ### Witnesses: what each instruction does -/

/-- The sequential reading of `full`: `$t0 = 5`, `$t1 = 0`, `$t2 = 10`. -/
def fullDrained : SeqState :=
  { x := ((full.x.set 8 5).set 9 0).set 10 10, dmem := [], pc := 12, imem := full.imem, dmemMisaligned := .refuse }

theorem full_drained : drained full = .ok fullDrained := rfl

/-- What the statements about one instruction assume of the state, of `full`. -/
theorem full_ready :
    PipelineInv full ∧ Linked full ∧ accessDefined full ∧ ¬ loadAhead full 8 ∧ ¬ loadAhead full 0 ∧
    drained full = .ok fullDrained :=
  ⟨full_inv, full_linked, by decide, by decide, by decide, full_drained⟩

/-- Three more cycles from `full` with the instruction `i` in Decode answer a next state. -/
def completes (i : Instr) : Bool := isNext (steps 3 (after (exec i full)))

theorem witness_AddWritesSum :
    (PipelineInv full ∧ Linked full ∧ accessDefined full ∧ ¬ loadAhead full 8 ∧ ¬ loadAhead full 0 ∧
      drained full = .ok fullDrained) ∧
    completes (.add 11 8 0) = true ∧ completes (.add 0 8 0) = true :=
  ⟨full_ready, by decide, by decide⟩

theorem witness_SubWritesDifference :
    (PipelineInv full ∧ Linked full ∧ accessDefined full ∧ ¬ loadAhead full 8 ∧ ¬ loadAhead full 0 ∧
      drained full = .ok fullDrained) ∧
    completes (.sub 11 0 8) = true ∧ completes (.sub 0 0 8) = true :=
  ⟨full_ready, by decide, by decide⟩

theorem witness_AddiWritesSum :
    (PipelineInv full ∧ Linked full ∧ accessDefined full ∧ ¬ loadAhead full 8 ∧ ¬ loadAhead full 0 ∧
      drained full = .ok fullDrained) ∧
    completes (.addi 11 8 0xFFFF8000) = true ∧ completes (.addi 0 8 1) = true :=
  ⟨full_ready, by decide, by decide⟩

theorem witness_SllWritesShift :
    (PipelineInv full ∧ Linked full ∧ accessDefined full ∧ ¬ loadAhead full 8 ∧ ¬ loadAhead full 0 ∧
      drained full = .ok fullDrained) ∧
    WellFormed (.sll 11 8 31) ∧ completes (.sll 11 8 31) = true ∧ WellFormed (.sll 0 8 0) ∧ completes (.sll 0 8 0) = true :=
  ⟨full_ready, by decide, by decide, by decide, by decide⟩

theorem witness_LwWritesLoadedWord :
    (PipelineInv full ∧ Linked full ∧ accessDefined full ∧ ¬ loadAhead full 8 ∧ ¬ loadAhead full 0 ∧
      drained full = .ok fullDrained) ∧
    completes (.lw 11 8 0xFFFFFFFF) = true ∧ completes (.lw 0 8 3) = true :=
  ⟨full_ready, by decide, by decide⟩

theorem witness_SwStoresRegister :
    (PipelineInv full ∧ Linked full ∧ accessDefined full ∧ ¬ loadAhead full 8 ∧ ¬ loadAhead full 0 ∧
      drained full = .ok fullDrained) ∧
    steps 2 (after (exec (.sw 8 0 4) full)) = .next (after (steps 2 (after (exec (.sw 8 0 4) full)))) :=
  ⟨full_ready, eq_next_of_isNext (by decide)⟩

theorem witness_BeqTakenRedirects :
    (accessDefined full ∧ ¬ loadAhead full 9 ∧ ¬ loadAhead full 0 ∧ committed full 9 = committed full 0) ∧
    (accessDefined (decoding 0x1109FFFD 6 6) ∧ ¬ loadAhead (decoding 0x1109FFFD 6 6) 8 ∧
      ¬ loadAhead (decoding 0x1109FFFD 6 6) 9 ∧ committed (decoding 0x1109FFFD 6 6) 8 = committed (decoding 0x1109FFFD 6 6) 9 ∧
      (decoding 0x1109FFFD 6 6).ifId.present = true ∧
      decode (decoding 0x1109FFFD 6 6).ifId.instr = .ok (.beq 8 9 0xFFFFFFFD)) := by decide

theorem witness_BeqNotTakenPasses :
    accessDefined full ∧ ¬ loadAhead full 8 ∧ ¬ loadAhead full 0 ∧ committed full 8 ≠ committed full 0 := by decide

theorem witness_JumpRedirects :
    accessDefined full ∧ accessDefined (behindLoad 0x08000000) ∧ (behindLoad 0x08000000).ifId.present = true ∧
    decode (behindLoad 0x08000000).ifId.instr = .ok (.j 0) := by decide

theorem witness_PassThroughCarriesFields :
    (accessDefined full ∧ (Instr.sw 9 0 4).fields.op ≠ .J ∧
      ¬ ((Instr.sw 9 0 4).fields.op = .BEQ ∧
        committed full (Instr.sw 9 0 4).fields.rs = committed full (Instr.sw 9 0 4).fields.rt) ∧
      ¬ loadAhead full (Instr.sw 9 0 4).fields.rs ∧ ¬ loadAhead full (Instr.sw 9 0 4).fields.rt ∧
      full.ifId.present = true ∧ decode full.ifId.instr = .ok (.sw 9 0 4)) ∧
    (¬ ((Instr.beq 8 0 4).fields.op = .BEQ ∧
        committed full (Instr.beq 8 0 4).fields.rs = committed full (Instr.beq 8 0 4).fields.rt) ∧
      ¬ loadAhead full (Instr.beq 8 0 4).fields.rs ∧ ¬ loadAhead full (Instr.beq 8 0 4).fields.rt) ∧
    (accessDefined (behindLoad 0x21090001) ∧ ¬ loadAhead (behindLoad 0x21090001) (Instr.addi 9 8 1).fields.rs ∧
      (Instr.addi 9 8 1).fields.op ∉ [Op.ADD, Op.SUB, Op.BEQ, Op.SW]) ∧
    (accessDefined (decoding 0xFFFFFFFF 0 0) ∧ (decoding 0xFFFFFFFF 0 0).ifId.present = true ∧
      decode (decoding 0xFFFFFFFF 0 0).ifId.instr = .error (.unrecognized 0xFFFFFFFF)) :=
  ⟨by decide, by decide, by decide, by decide⟩

theorem witness_UnrecognizedWordIsNoOp :
    accessDefined full ∧
    steps 1 (after (execOther full)) = .next (after (steps 1 (after (execOther full)))) ∧
    step (after (steps 1 (after (execOther full)))) = .next (after (step (after (steps 1 (after (execOther full)))))) ∧
    steps 2 (after (execOther full)) = .next (after (steps 2 (after (execOther full)))) ∧
    step (after (steps 2 (after (execOther full)))) = .next (after (step (after (steps 2 (after (execOther full)))))) :=
  ⟨by decide, eq_next_of_isNext (by decide), eq_next_of_isNext (by decide), eq_next_of_isNext (by decide),
    eq_next_of_isNext (by decide)⟩

theorem witness_LoneArithmeticEffect : loneInDecode lone := by decide

theorem witness_LoneAccessEffect :
    loneInDecode lone ∧ memRead lone.dmemMisaligned lone.dmem (lone.reg 8 + 4) = .ok 21 ∧
    memWrite lone.dmemMisaligned lone.dmem (lone.reg 8 + 4) (lone.reg 9) = .ok [(104, 7)] ∧
    memRead lone.dmemMisaligned lone.dmem (lone.reg 8 + 6) = .error (.dmemMisaligned 106) := by decide

/-! ### Witnesses: hazards and the sequential reading -/

theorem witness_ForwardingGivesProgramOrder :
    PipelineInv full ∧ Linked full ∧ full.idEx.present = true ∧
    completeExMem full.exMem (completeMemWb full.memWb ⟨full.x, full.dmem, full.pc, full.imem, full.dmemMisaligned⟩) =
      .ok { fullDrained with x := (full.x.set 8 5).set 9 0, pc := 16 } ∧
    consumesRs full.idEx.op = true ∧ consumesRt full.idEx.op = true :=
  ⟨full_inv, full_linked, by decide, rfl, by decide, by decide⟩

theorem witness_BranchIgnoresInFlightResults :
    full.idEx.op ≠ .LW ∧ (latch .ADDI 8 0 8 0 1 8).op ≠ .LW ∧
    exec (.beq 8 9 1) full = .next (after (exec (.beq 8 9 1) full)) ∧
    exec (.beq 8 9 1) { full with idEx := latch .ADDI 8 0 8 0 1 8, exMem := latch .ADDI 4 0 9 0 1 9 } =
      .next (after (exec (.beq 8 9 1) { full with idEx := latch .ADDI 8 0 8 0 1 8, exMem := latch .ADDI 4 0 9 0 1 9 })) :=
  ⟨by decide, by decide, eq_next_of_isNext (by decide), eq_next_of_isNext (by decide)⟩

theorem witness_CycleRefinesSequential :
    (PipelineInv full ∧ Linked full ∧ staleBranch full = false ∧ step full = .next (after (step full)) ∧
      issues full = true ∧ drained full = .ok fullDrained) ∧
    (PipelineInv (behindLoad 0x01295020) ∧ Linked (behindLoad 0x01295020) ∧ staleBranch (behindLoad 0x01295020) = false ∧
      step (behindLoad 0x01295020) = .next (after (step (behindLoad 0x01295020))) ∧
      issues (behindLoad 0x01295020) = false) :=
  ⟨⟨full_inv, full_linked, by decide, full_next, by decide, full_drained⟩, behindLoad_inv, by decide, by decide,
    eq_next_of_isNext (by decide), by decide⟩

theorem witness_QuiescentAgreesWithSequential :
    PipelineInv draining ∧ Linked draining ∧ neverStale 1 draining ∧
    drained draining = .ok ⟨draining.x.set 8 5, [], 4, [0x20080005], .refuse⟩ ∧
    steps 1 draining = .next (after (steps 1 draining)) ∧ quiescent (after (steps 1 draining)) = true :=
  ⟨draining_inv, by decide, ⟨by decide, fun _ _ => trivial⟩, rfl, eq_next_of_isNext (by decide), by decide⟩

/-! ### Witnesses: host interface and assembler -/

theorem witness_StatusReportsStall :
    step full = .next (after (step full)) ∧ step (behindLoad 0x01295020) = .next (after (step (behindLoad 0x01295020))) ∧
    (status (behindLoad 0x01295020) (after (step (behindLoad 0x01295020)))).outcome = .stalled ∧
    (status State.reset (after (step State.reset))).outcome = .empty :=
  ⟨full_next, eq_next_of_isNext (by decide), by decide, by decide⟩

theorem witness_AssemblerEmitsOneWordPerLine :
    assemble "j 8\n# c\na: ".toList = .ok [0x08000002] := by decide +kernel

theorem witness_AssembledWordsAreEncodings :
    assemble "j 8\nx".toList = .ok [0x08000002, 0xFFFFFFFF] := by decide +kernel

theorem witness_LabelsBindNextInstruction :
    (⟨some ['a'], none⟩ : Line).label = some ['a'] ∧
    passOne ([⟨none, some ['x']⟩] ++ ⟨some ['a'], none⟩ :: [⟨none, some ['y']⟩]) 0 [] =
      .ok ([(['a'], 4)], [['x'], ['y']]) := by decide

theorem witness_TargetsResolve :
    (findLabel [(['a'], 8)] ['a'] = some 8 ∧ 8 % 4 = 0 ∧ 0 % 4 = 0 ∧ branchOffset [(['a'], 8)] 0 ['a'] = .ok 1) ∧
    (findLabel [(['a'], 0)] ['a'] = some 0 ∧ branchOffset [(['a'], 0)] 131068 ['a'] = .ok 0xFFFF8000) ∧
    jumpAddress [(['a'], 268435452)] ['a'] = .ok 0x0FFFFFFC ∧
    findLabel [] ['n'] = none ∧ parseInt ['n'] = none := by decide

theorem witness_AccessFormsAgree :
    '(' ∉ ['4'] ∧ ')' ∉ ['$', 't', '1'] ∧ ['$', 't', '1'] ≠ [] ∧ immediate16 ['4'] = .ok (some 4) := by decide

theorem witness_LiteralsAreRangeChecked :
    parseInt "32767".toList = some 32767 ∧ parseInt "-32768".toList = some (-32768) ∧
    parseInt "32768".toList = some 32768 ∧ parseInt "-32769".toList = some (-32769) ∧
    parseInt "31".toList = some 31 ∧ parseInt "0".toList = some 0 ∧ parseInt "32".toList = some 32 ∧
    parseInt "-1".toList = some (-1) ∧
    findLabel [(['a'], 8)] "32767".toList = none ∧ findLabel [(['a'], 8)] "-32769".toList = none ∧
    parseInt "268435452".toList = some (2 ^ 28 - 4) ∧ findLabel [(['a'], 8)] "268435452".toList = none ∧
    parseInt "268435456".toList = some (2 ^ 28) ∧ findLabel [(['a'], 8)] "268435456".toList = none ∧
    findLabel [(['a'], 8)] "0".toList = none ∧ findLabel [(['a'], 8)] "-1".toList = none := by decide +kernel

end Sys2Proof.Tests
end

namespace Sys2Proof.Machine

/-! ### Registers over a write and over a step (R12, R85) -/

/-- A write to register 0 is discarded (R12). -/
@[simp] theorem State.setReg_zero (s : State) (v : Word) : s.setReg 0 v = s := if_pos rfl

/-- A register other than 0 reads as the value just written to it. -/
theorem State.reg_setReg_same (s : State) {r : Reg} (hr : r ≠ 0) (v : Word) : (s.setReg r v).reg r = v := by
  rw [State.reg_setReg, if_pos ⟨hr, rfl⟩]

/-- A register write leaves every other register alone. -/
theorem State.reg_setReg_of_ne (s : State) {r q : Reg} (hq : q ≠ r) (v : Word) :
    (s.setReg r v).reg q = s.reg q := by
  rw [State.reg_setReg, if_neg (fun h => hq h.2)]

/-- Decode writes no register. -/
@[simp] theorem decodePart_reg (s u : State) (q : Reg) : (decodePart s u).reg q = u.reg q := by
  obtain ⟨hx, -⟩ := decodePart_keeps s u
  unfold State.reg
  rw [hx]

/-- The registers after a step are those Write-back of that step leaves (R85). -/
theorem step_reg {s t : State} (h : step s = .next t) (q : Reg) : t.reg q = (writeBack s.memWb s).reg q := by
  obtain ⟨mw, m, -, rfl⟩ := step_next_iff.mp h
  rw [fetch_reg, decodePart_reg, beforeDecode_reg]

/-- A register that Write-back changes is the nonzero destination of a present latch (R85). -/
theorem writeBack_reg_ne {l : Latch} {s : State} {q : Reg} (h : (writeBack l s).reg q ≠ s.reg q) :
    l.present = true ∧ l.dest = q ∧ q ≠ 0 := by
  rw [writeBack_reg] at h
  split at h
  case isTrue hw =>
    obtain ⟨hpresent, hdest, rfl⟩ := hw
    exact ⟨hpresent, rfl, hdest⟩
  case isFalse => exact absurd rfl h

/-- Settles O17: the first two parts are the rules of `setReg`, the third is what Write-back changes, as no other stage
writes a register; the destinations are read off the decoder's records (R56). -/
theorem registerZeroIsHardwired : Obligations.RegisterZeroIsHardwired := by
  refine ⟨?write_zero, ?write_other, ?step_frame, ?destinations, ?zero_after_step⟩
  case write_zero => exact fun s v => ⟨s.setReg_zero v, s.reg_zero⟩
  case write_other => exact fun s r q v hr => ⟨s.reg_setReg_same hr v, fun hq => s.reg_setReg_of_ne hq v⟩
  case step_frame =>
    intro s t q h hne
    rw [step_reg h] at hne
    exact writeBack_reg_ne hne
  case destinations => exact fun rd rs rt imm => ⟨rfl, rfl, rfl, rfl, rfl, rfl, rfl, rfl, rfl⟩
  case zero_after_step => exact fun s t _ => t.reg_zero

end Sys2Proof.Machine

namespace Sys2Proof.Machine

/-! ### The Hazard Detector (R98) and what Decode reads (R97) -/

/-- The Hazard Detector holds for a `LW` ahead whose nonzero destination the instruction consumes (R98). -/
theorem hazard_eq_true_iff (d : Decoded) (la : Latch) :
    hazard d la = true ↔ la.op = .LW ∧ la.dest ≠ 0 ∧
      ((d.op ≠ .J ∧ d.rs = la.dest) ∨ (d.op ∈ [Op.ADD, Op.SUB, Op.BEQ, Op.SW] ∧ d.rt = la.dest)) := by
  simp [hazard, consumesRs, consumesRt, and_assoc, or_assoc]

/-- An instruction none of whose consumed registers a `LW` ahead will write has no hazard (R98). -/
theorem hazard_eq_false_of_not_loadAhead {d : Decoded} {s : State} (hrs : d.op ≠ .J → ¬ loadAhead s d.rs)
    (hrt : d.op ∈ [Op.ADD, Op.SUB, Op.BEQ, Op.SW] → ¬ loadAhead s d.rt) : hazard d s.idEx = false := by
  rw [Bool.eq_false_iff]
  intro hh
  obtain ⟨hlw, hdest, ⟨hop, hr⟩ | ⟨hop, hr⟩⟩ := (hazard_eq_true_iff d s.idEx).mp hh
  · exact hrs hop ⟨hlw, hdest, hr.symm⟩
  · exact hrt hop ⟨hlw, hdest, hr.symm⟩

/-- Decode reads the committed registers (R83, R97). -/
theorem beforeDecode_reg_eq_committed (s : State) (mw : Latch) (m : Mem) (q : Reg) :
    (beforeDecode s mw m).reg q = committed s q := by
  rw [beforeDecode_reg, writeBack_reg_eq_committed]

/-- Register 0 is committed as 0 (R12). -/
theorem committed_zero (s : State) : committed s 0 = 0 := by
  rw [← writeBack_reg_eq_committed, State.reg_zero]

/-- The branch target with the offset as a product, as R100 writes it. -/
theorem branchTarget_eq_mul (fetchPc imm : Word) : branchTarget fetchPc imm = fetchPc + 4 + imm * 4 := by
  rw [branchTarget, BitVec.shiftLeft_eq_mul_twoPow]
  rfl

/-! ### What Decode does in each case (R99 to R102) -/

section DecodeActions

variable {d : Decoded} {l la : Latch} {s : State}

/-- A hazard stalls (R99). -/
theorem decodeStage_of_hazard (h : hazard d la = true) : decodeStage d l la s = stallAction s := if_pos h

/-- A taken `beq` is a jump to its branch target (R100). -/
theorem decodeStage_of_taken (h : hazard d la = false) (hop : d.op = .BEQ) (heq : s.reg d.rs = s.reg d.rt) :
    decodeStage d l la s = jumpAction (branchTarget l.pc d.imm) s := by
  rw [decodeStage, h, if_neg Bool.false_ne_true, if_pos ⟨hop, heq⟩]
  rfl

/-- A `j` with no hazard jumps (R101). -/
theorem decodeStage_of_jump (h : hazard d la = false) (hop : d.op = .J) :
    decodeStage d l la s = jumpAction d.imm s := by
  simp [decodeStage, h, hop]

/-- Everything else passes on to ID_EX (R102). -/
theorem decodeStage_of_pass (h : hazard d la = false) (hb : ¬ (d.op = .BEQ ∧ s.reg d.rs = s.reg d.rt))
    (hj : d.op ≠ .J) : decodeStage d l la s = s.setIdEx (issuedLatch d l.pc s) := by
  rw [decodeStage, h, if_neg Bool.false_ne_true, if_neg hb, if_neg hj]

/-- Decode raises the stall flag exactly on a hazard (R98, R99). -/
theorem decodeStage_stallAsserted (hs : s.stallAsserted = false) :
    (decodeStage d l la s).stallAsserted = hazard d la := by
  obtain ⟨hh, h⟩ | ⟨hh, -, -, h⟩ | ⟨hh, -, h⟩ | ⟨hh, -, -, h⟩ := decodeStage_cases d l la s
  · rw [h, hh]; rfl
  all_goals rw [h, hh]; exact hs

end DecodeActions

/-- The stall flag Decode leaves in a step (R94, R98). -/
theorem decodePart_stallAsserted {s u : State} (hu : u.stallAsserted = false) :
    (decodePart s u).stallAsserted = (s.ifId.present && hazard (decodeFields s.ifId.instr) s.idEx) := by
  unfold decodePart
  cases hp : s.ifId.present
  case false => simpa using hu
  case true => simpa using decodeStage_stallAsserted hu

/-- Decode of a step that raises the stall flag did nothing but the stall action (R99). -/
theorem decodePart_of_stall {s u : State} (hu : u.stallAsserted = false)
    (h : (decodePart s u).stallAsserted = true) : decodePart s u = stallAction u := by
  rw [decodePart_stallAsserted hu, Bool.and_eq_true] at h
  obtain ⟨hp, hh⟩ := h
  rw [decodePart, if_pos hp, decodeStage_of_hazard hh]

/-- The `pc` Decode leaves: the redirected one, or that before (R84, R100, R101). -/
theorem decodePart_pc {s u : State} (hreg : ∀ q, u.reg q = committed s q) (hpc : u.pc = s.pc) :
    (decodePart s u).pc = (redirect s).getD s.pc := by
  by_cases hp : s.ifId.present = true
  case neg =>
    have hissues : issues s = false := by simp [issues, hp]
    simp [decodePart, redirect, hp, hissues, hpc]
  case pos =>
    rw [decodePart, if_pos hp]
    obtain ⟨hh, h⟩ | ⟨hh, hop, heq, h⟩ | ⟨hh, hop, h⟩ | ⟨hh, hb, hj, h⟩ :=
      decodeStage_cases (decodeFields s.ifId.instr) s.ifId s.idEx u
    · have hissues : issues s = false := by simp [issues, hh]
      rw [h, redirect, if_pos hissues]
      exact hpc
    all_goals have hissues : issues s = true := by simp [issues, hp, hh]
    · rw [hreg, hreg] at heq
      rw [h, takenBranchAction, State.setIdEx_pc, State.setIfId_pc, State.setPc_pc, branchTarget_eq_mul]
      simp [redirect, hissues, hop, heq]
    · rw [h]
      simp [redirect, hissues, hop, jumpAction]
    · rw [hreg, hreg] at hb
      rw [h, State.setIdEx_pc, hpc, redirect, if_neg (by simp [hissues]), if_neg hj, if_neg hb]
      rfl

/-! ### Fetch after Decode (R106, R107) -/

/-- Without a stall Fetch leaves IF_ID and `pc` as fetched at the `pc` it finds. -/
theorem fetchedFrom_fetch {s u : State} (hstall : u.stallAsserted = false) (himem : u.imem = s.imem) :
    fetchedFrom s (fetch u) u.pc := by
  constructor
  · intro hlt
    have hin : u.inProgram u.pc = true := by simpa [State.inProgram, himem] using hlt
    rw [fetch_inside hstall hin, ← himem]
    exact ⟨rfl, rfl⟩
  · intro hge
    have hout : u.inProgram u.pc = false := by simpa [State.inProgram, himem] using hge
    rw [fetch_outside hstall hout]
    exact ⟨rfl, rfl⟩

/-! ### The cycle of one instruction in Decode -/

/-- A step with a recognized word in IF_ID answers what the cycle of its instruction answers (R95). -/
theorem step_next_of_exec {s t : State} {i : Instr} (hnext : exec i s = .next t) (hp : s.ifId.present = true)
    (hd : decode s.ifId.instr = .ok i) : step s = .next t := by
  rw [step_of_present hp, decodeFields, hd, ← hnext, exec_eq_cycleDecoding]

/-- With a defined access the cycle of a decoded instruction has a next state, and this one (R80, R81). -/
theorem cycleDecoding_next {s : State} (hacc : accessDefined s) (d : Decoded) :
    ∃ mw m, cycleDecoding d s = .next (fetch (decodeStage d s.ifId s.idEx (beforeDecode s mw m))) := by
  obtain ⟨mw, m, hmem⟩ := memoryStage_of_accessDefined hacc
  exact ⟨mw, m, cycle_next_iff.mpr ⟨mw, m, hmem, rfl⟩⟩

/-- A hazard stalls: the flag, a bubble in ID_EX, and IF_ID and `pc` kept (R99, R105). -/
theorem cycleDecoding_stalls {s : State} {d : Decoded} (hacc : accessDefined s) (hh : hazard d s.idEx = true) :
    ∃ t, cycleDecoding d s = .next t ∧
      t.stallAsserted = true ∧ t.idEx = bubble ∧ t.ifId = s.ifId ∧ t.pc = s.pc := by
  obtain ⟨mw, m, hnext⟩ := cycleDecoding_next hacc d
  rw [decodeStage_of_hazard hh, fetch_stalled rfl] at hnext
  exact ⟨_, hnext, rfl, rfl, beforeDecode_ifId s mw m, beforeDecode_pc s mw m⟩

/-- A cycle whose Decode jumps to `target`: no stall, a bubble in ID_EX, and Fetch at `target` (R84, R101). -/
theorem cycleDecoding_jumps {s : State} {d : Decoded} {target : Word} (hacc : accessDefined s)
    (hjump : ∀ u : State, (∀ q, u.reg q = committed s q) →
      decodeStage d s.ifId s.idEx u = jumpAction target u) :
    ∃ t, cycleDecoding d s = .next t ∧ t.stallAsserted = false ∧ t.idEx = bubble ∧ fetchedFrom s t target := by
  obtain ⟨mw, m, hnext⟩ := cycleDecoding_next hacc d
  rw [hjump _ (beforeDecode_reg_eq_committed s mw m)] at hnext
  have hstall : (jumpAction target (beforeDecode s mw m)).stallAsserted = false := beforeDecode_stallAsserted s mw m
  exact ⟨_, hnext, by rw [fetch_stallAsserted, hstall], by rw [fetch_idEx]; rfl,
    fetchedFrom_fetch hstall (beforeDecode_imem s mw m)⟩

/-- What passes Decode carries its fields and the committed registers into ID_EX, and Fetch goes on at `pc` (R102). -/
theorem cycleDecoding_passes {s : State} {d : Decoded} (hacc : accessDefined s) (hh : hazard d s.idEx = false)
    (hb : ¬ (d.op = .BEQ ∧ committed s d.rs = committed s d.rt)) (hj : d.op ≠ .J) :
    ∃ t, cycleDecoding d s = .next t ∧ t.stallAsserted = false ∧ fetchedFrom s t s.pc ∧
      t.idEx = { bubble with
        present := true, pc := s.ifId.pc, op := d.op, rs := d.rs, rt := d.rt, rd := d.rd, imm := d.imm,
        dest := d.dest, rsValue := committed s d.rs, rtValue := committed s d.rt } := by
  obtain ⟨mw, m, hnext⟩ := cycleDecoding_next hacc d
  have hreg := beforeDecode_reg_eq_committed s mw m
  rw [decodeStage_of_pass hh (by rwa [hreg, hreg]) hj] at hnext
  refine ⟨_, hnext, by simp, ?fetched, ?latch⟩
  case fetched =>
    have hfetch := fetchedFrom_fetch (s := s)
      (u := (beforeDecode s mw m).setIdEx (issuedLatch d s.ifId.pc (beforeDecode s mw m))) (by simp) (by simp)
    rwa [State.setIdEx_pc, beforeDecode_pc] at hfetch
  case latch => rw [fetch_idEx, State.setIdEx_idEx, issuedLatch, hreg, hreg]

/-! ### The back end of a step -/

/-- The Memory stage of a step gives its MEM_WB and its data memory (R81, R87). -/
theorem step_memoryStage {s t : State} (h : step s = .next t) :
    memoryStage s.dmemMisaligned s.exMem s.dmem = .ok (t.memWb, t.dmem) := by
  obtain ⟨mw, m, hmem, rfl⟩ := step_next_iff.mp h
  obtain ⟨-, hdmem, -, -, hmemWb, -⟩ := decodePart_keeps s (beforeDecode s mw m)
  rw [fetch_memWb, fetch_dmem, hdmem, hmemWb, beforeDecode_memWb, beforeDecode_dmem, hmem]

/-- The Execute stage of a step gives its EX_MEM (R81, R88). -/
theorem step_exMem {s t : State} (h : step s = .next t) : t.exMem = execute s.idEx s.exMem s.memWb := by
  obtain ⟨mw, m, -, rfl⟩ := step_next_iff.mp h
  obtain ⟨-, -, -, hexMem, -⟩ := decodePart_keeps s (beforeDecode s mw m)
  rw [fetch_exMem, hexMem, beforeDecode_exMem]

/-- With a bubble in EX_MEM no access is made, so the cycle's access is defined (R86). -/
theorem accessDefined_of_absent {s : State} (h : s.exMem.present = false) : accessDefined s :=
  fun hp => absurd hp (by simp [h])

/-- The stall flag before a step is cleared with the counting of the cycle, so it has no effect (R18, R81). -/
theorem step_setStallAsserted (s : State) (b : Bool) : step { s with stallAsserted := b } = step s := by
  rw [step_eq_cycle, step_eq_cycle]
  rfl

/-- Settles O11: the flag after a step is the one Decode leaves, which is the Hazard Detector's answer. -/
theorem stallFlagFollowsHazard : Obligations.StallFlagFollowsHazard := by
  refine ⟨step_setStallAsserted, ?_⟩
  intro s t h
  obtain ⟨mw, m, -, rfl⟩ := step_next_iff.mp h
  rw [fetch_stallAsserted, decodePart_stallAsserted (beforeDecode_stallAsserted s mw m), Bool.and_eq_true,
    hazard_eq_true_iff]

/-- Settles O12: the registers after a step are the committed ones. -/
theorem writeBackWritesDestination : Obligations.WriteBackWritesDestination := by
  intro s t r h
  rw [step_reg h, writeBack_reg_eq_committed]
  rfl

/-- Settles O13: without an access the cycle is defined, and the Memory stage passes the bubble on. -/
theorem memoryStagePassesBubble : Obligations.MemoryStagePassesBubble := by
  intro s habsent
  obtain ⟨mw, m, hmem⟩ := memoryStage_of_accessDefined (accessDefined_of_absent habsent)
  have hnext := step_next_iff.mpr ⟨mw, m, hmem, rfl⟩
  refine ⟨_, hnext, ?_⟩
  obtain ⟨-, hw, hm⟩ | ⟨hp, -⟩ | ⟨hp, -⟩ | ⟨hp, -⟩ := memoryStage_ok (step_memoryStage hnext)
  · exact ⟨hw, hm⟩
  all_goals rw [habsent] at hp; cases hp

/-- Settles O14: by the four things the Memory stage can do with EX_MEM. -/
theorem memoryStageAccesses : Obligations.MemoryStageAccesses := by
  intro s t hp h
  obtain ⟨ha, -⟩ | ⟨-, hop, hm, hload⟩ | ⟨-, hop, hstore, hw⟩ | ⟨-, hlw, hsw, hw, hm⟩ :=
    memoryStage_ok (step_memoryStage h)
  case inl => rw [hp] at ha; cases ha
  case inr.inl => simpa [hop, hm] using hload
  case inr.inr.inl =>
    have hdest : opsOk s → s.exMem.dest = 0 := by
      rintro ⟨-, hops, -⟩
      by_contra hne
      obtain ⟨-, hwrites⟩ := hops hp
      have hwriter := hwrites hne
      simp [hop] at hwriter
    simpa [hop, hstore, hw, hp] using hdest
  case inr.inr.inr => simp [hlw, hsw, hw, hm]

/-- Settles O15: the operands of the statement are those the Forwarding Unit resolves, and each op is its own arm of the
ALU. -/
theorem executeResolvesOperands : Obligations.ExecuteResolvesOperands := by
  intro s t a b h ha hb
  have hrs : forward s.idEx.rs s.idEx.rsValue s.exMem s.memWb = a := ha.symm
  have hrt : forward s.idEx.rt s.idEx.rtValue s.exMem s.memWb = b := hb.symm
  constructor
  · intro habsent
    rw [step_exMem h, execute_absent _ _ habsent]
  · intro hp
    rw [step_exMem h, execute_present _ _ hp, hrs, hrt]
    refine ⟨_, rfl, ?add, ?sub, ?immediate, ?sll, ?zero⟩
    case add => intro hop; rw [hop, alu]
    case sub => intro hop; rw [hop, alu]
    case immediate => rintro (hop | hop | hop) <;> rw [hop, alu]
    case sll => intro hop; rw [hop, alu]; rfl
    case zero => rintro (hop | hop) <;> rw [hop, alu]

/-- Settles O18: the instruction's hazard stalls its cycle, which is the step when it stands in IF_ID. -/
theorem loadUseStallsDecode : Obligations.LoadUseStallsDecode := by
  intro s i hacc hlw hdest hconsumes
  have hh : hazard i.fields s.idEx = true := (hazard_eq_true_iff _ _).mpr ⟨hlw, hdest, hconsumes⟩
  obtain ⟨t, hnext, hstall, hidEx, hifId, hpc⟩ := cycleDecoding_stalls hacc hh
  rw [← exec_eq_cycleDecoding] at hnext
  exact ⟨t, hnext, hstall, hidEx, hifId, hpc, step_next_of_exec hnext⟩

/-- Settles O19: a raised flag means that Decode only stalled; else Fetch works at the `pc` Decode left. -/
theorem fetchFollowsDecode : Obligations.FetchFollowsDecode := by
  intro s t h
  obtain ⟨mw, m, -, rfl⟩ := step_next_iff.mp h
  have hclear := beforeDecode_stallAsserted s mw m
  rw [fetch_stallAsserted]
  constructor
  · intro hstall
    rw [fetch_stalled hstall, decodePart_of_stall hclear hstall]
    exact ⟨beforeDecode_ifId s mw m, beforeDecode_pc s mw m⟩
  · intro hstall
    obtain ⟨-, -, -, -, -, himem, -⟩ := decodePart_keeps s (beforeDecode s mw m)
    have hpc := decodePart_pc (beforeDecode_reg_eq_committed s mw m) (beforeDecode_pc s mw m)
    rw [← hpc]
    exact fetchedFrom_fetch hstall (himem.trans (beforeDecode_imem s mw m))

/-- Settles O20: Decode of a bubble only empties ID_EX, so Fetch finds the flag cleared and `pc` as before. -/
theorem emptyDecodePassesBubble : Obligations.EmptyDecodePassesBubble := by
  intro s t habsent h
  obtain ⟨mw, m, -, rfl⟩ := step_next_iff.mp h
  have hdec : decodePart s = decodeEmpty := if_neg (by simp [habsent])
  have hfetch := fetchedFrom_fetch (s := s) (u := decodeEmpty (beforeDecode s mw m)) (by simp) (by simp)
  rw [decodeEmpty_pc, beforeDecode_pc] at hfetch
  rw [hdec]
  exact ⟨by simp, by simp, hfetch⟩

/-- Settles O41: without a hazard the equal committed registers make Decode jump to the branch target. -/
theorem beqTakenRedirects : Obligations.BeqTakenRedirects := by
  intro s rs rt imm hacc hrs hrt heq
  have hh : hazard (Instr.beq rs rt imm).fields s.idEx = false :=
    hazard_eq_false_of_not_loadAhead (fun _ => hrs) (fun _ => hrt)
  obtain ⟨t, hnext, hstall, hidEx, hfetch⟩ := cycleDecoding_jumps hacc fun u hreg =>
    decodeStage_of_taken (l := s.ifId) hh rfl ((hreg rs).trans (heq.trans (hreg rt).symm))
  rw [← exec_eq_cycleDecoding] at hnext
  rw [branchTarget_eq_mul] at hfetch
  exact ⟨t, hnext, hstall, hidEx, hfetch, step_next_of_exec hnext⟩

/-- Settles O43: a `j` consumes no register, so it has no hazard and jumps. -/
theorem jumpRedirects : Obligations.JumpRedirects := by
  intro s target hacc
  have hh : hazard (Instr.j target).fields s.idEx = false :=
    hazard_eq_false_of_not_loadAhead (fun hop => absurd rfl hop) (fun hop => absurd hop (by simp [Instr.fields]))
  obtain ⟨t, hnext, hstall, hidEx, hfetch⟩ := cycleDecoding_jumps hacc fun u _ =>
    decodeStage_of_jump (l := s.ifId) hh rfl
  rw [← exec_eq_cycleDecoding] at hnext
  exact ⟨t, hnext, hstall, hidEx, hfetch, step_next_of_exec hnext⟩

/-- Settles O44: an instruction passes Decode with its fields, an unrecognized word with those of `OTHER`, whose only
register, 0, no load ahead writes. -/
theorem passThroughCarriesFields : Obligations.PassThroughCarriesFields := by
  constructor
  · intro s i hacc hj hb hrs hrt
    obtain ⟨t, hnext, hstall, hfetch, hidEx⟩ :=
      cycleDecoding_passes hacc (hazard_eq_false_of_not_loadAhead (fun _ => hrs) hrt) hb hj
    rw [← exec_eq_cycleDecoding] at hnext
    exact ⟨t, hnext, hstall, hfetch, hidEx, step_next_of_exec hnext⟩
  · intro s e hacc hp hd
    have hfields : decodeFields s.ifId.instr = otherFields := by rw [decodeFields, hd]
    have hh : hazard otherFields s.idEx = false :=
      hazard_eq_false_of_not_loadAhead (fun _ ⟨_, hdest, hzero⟩ => hdest hzero)
        (fun _ ⟨_, hdest, hzero⟩ => hdest hzero)
    obtain ⟨t, hnext, hstall, hfetch, hidEx⟩ :=
      cycleDecoding_passes hacc hh (by simp [otherFields]) (by simp [otherFields])
    refine ⟨t, by rw [step_of_present hp, hfields, hnext], hstall, hfetch, ?_⟩
    rw [hidEx]
    simp only [otherFields, committed_zero]
    rfl

end Sys2Proof.Machine

namespace Sys2Proof.Machine

/-! ### The reset operation (R181, R182) -/

/-- Every register reads 0 after a reset (R26). -/
@[simp] theorem resetOp_reg (s : State) (r : Reg) : (resetOp s).reg r = 0 := by
  unfold State.reg
  split
  case isTrue => rfl
  case isFalse => exact Vector.getElem_replicate _

/-- All that a reset keeps of a state is its program store and its parameter (R181). -/
theorem resetOp_congr {s t : State} (himem : s.imem = t.imem) (hmis : s.dmemMisaligned = t.dmemMisaligned) :
    resetOp s = resetOp t := by
  rw [resetOp, resetOp, himem, hmis]

/-- Settles O24: a reset keeps the two things it depends on, so that the second reset finds what the first found. -/
theorem resetIsIdempotent : Obligations.ResetIsIdempotent :=
  ⟨fun _ => resetOp_congr rfl rfl, fun s => ⟨resetOp_reg s, rfl, rfl, rfl⟩, fun _ _ => resetOp_congr⟩

end Sys2Proof.Machine

namespace Sys2Proof

/-! ### Rows of the opcode map (R55) -/

/-- Two rows a word selects have patterns that agree where both masks look. -/
theorem pattern_and_mask_eq_of_selects {r q : Row} {w : Word} (hr : r.selects w = true)
    (hq : q.selects w = true) : r.pattern &&& q.mask = q.pattern &&& r.mask := by
  rw [← beq_iff_eq.mp hr, ← beq_iff_eq.mp hq, BitVec.and_assoc, BitVec.and_assoc, BitVec.and_comm r.mask]

/-- No two rows of the map have patterns that agree where both masks look. -/
theorem row_eq_of_pattern_and_mask_eq :
    ∀ r ∈ opcodeMap, ∀ q ∈ opcodeMap, r.pattern &&& q.mask = q.pattern &&& r.mask → r = q := by
  decide

/-- Settles O4: a word that selects two rows makes their patterns agree where both masks look. -/
theorem opcodeRowsExclusive : Obligations.OpcodeRowsExclusive := by
  intro w r q hr hq hrw hqw
  exact row_eq_of_pattern_and_mask_eq r hr q hq (pattern_and_mask_eq_of_selects hrw hqw)

/-- What the decoder answers for a word of the row of `op` (R56). -/
def decodeAs (op : Op) (w : Word) : Except DecodeReject Instr :=
  match op with
  | .SLL  => .ok (.sll (fieldRd w) (fieldRt w) (fieldShamt w))
  | .ADD  => .ok (.add (fieldRd w) (fieldRs w) (fieldRt w))
  | .SUB  => .ok (.sub (fieldRd w) (fieldRs w) (fieldRt w))
  | .J    => .ok (.j (fieldTarget w))
  | .BEQ  => .ok (.beq (fieldRs w) (fieldRt w) (fieldImm16 w))
  | .ADDI => .ok (.addi (fieldRt w) (fieldRs w) (fieldImm16 w))
  | .LW   => .ok (.lw (fieldRt w) (fieldRs w) (fieldImm16 w))
  | .SW   => .ok (.sw (fieldRt w) (fieldRs w) (fieldImm16 w))
  | _     => .error (.unrecognized w)

/-- The decoder takes the first row of the map that the word selects (R54, R55). -/
theorem decode_eq_find (w : Word) :
    decode w = ((opcodeMap.find? (·.selects w)).map (decodeAs ·.op w)).getD (.error (.unrecognized w)) := by
  unfold decode
  split_ifs <;> simp only [opcodeMap, List.find?, *] <;> rfl

/-- A word that selects a row is decoded by it, whichever place the row has in the map (R54, R55). -/
theorem decode_eq_decodeAs {r : Row} {w : Word} (hr : r ∈ opcodeMap) (hw : r.selects w = true) :
    decode w = decodeAs r.op w := by
  obtain ⟨q, hfind⟩ := Option.isSome_iff_exists.mp (List.find?_isSome (p := (·.selects w)).mpr ⟨r, hr, hw⟩)
  obtain rfl := opcodeRowsExclusive w q r (List.mem_of_find?_eq_some hfind) hr
    (List.find?_some (p := fun q : Row => q.selects w) hfind) hw
  rw [decode_eq_find, hfind]
  rfl

/-- A word that selects no row is unrecognized (R59). -/
theorem decode_of_unselected {w : Word} (h : ∀ r ∈ opcodeMap, r.selects w = false) :
    decode w = .error (.unrecognized w) := by
  have hfind : opcodeMap.find? (·.selects w) = none := by simpa using h
  rw [decode_eq_find, hfind]
  rfl

/-- An instruction is decoded from the fields of a row its word selects. -/
theorem decode_ok {w : Word} {i : Instr} (h : decode w = .ok i) :
    ∃ r ∈ opcodeMap, r.selects w = true ∧ decodeAs r.op w = .ok i := by
  rw [decode_eq_find] at h
  cases hfind : opcodeMap.find? (·.selects w) with
  | none => rw [hfind] at h; cases h
  | some r =>
    rw [hfind] at h
    exact ⟨r, List.mem_of_find?_eq_some hfind, List.find?_some (p := fun r : Row => r.selects w) hfind, h⟩

/-- The record of a word that selects a row is that of the row's instruction (R56). -/
theorem decodeFields_of_selects {r : Row} {w : Word} {i : Instr} (hr : r ∈ opcodeMap)
    (hw : r.selects w = true) (hi : decodeAs r.op w = .ok i) : decodeFields w = i.fields := by
  rw [decodeFields, decode_eq_decodeAs hr hw, hi]

/-- Settles O6: the decoder finds no row or the one selected, and each row's instruction has its op. -/
theorem unselectedWordsAreOther : Obligations.UnselectedWordsAreOther := by
  intro w
  constructor
  · intro hnone
    have hdec := decode_of_unselected hnone
    exact ⟨by rw [decodeFields, hdec]; rfl, hdec⟩
  · intro r hr hw
    rw [decodeFields, decode_eq_decodeAs hr hw]
    simp only [opcodeMap, List.mem_cons, List.not_mem_nil, or_false] at hr
    rcases hr with rfl | rfl | rfl | rfl | rfl | rfl | rfl | rfl <;> rfl

/-- Settles O5: each row is selected by its mask and pattern, and routes the fields of its instruction. -/
theorem decoderRoutesFields : Obligations.DecoderRoutesFields := by
  intro w
  have route (r : Row) {i : Instr} (hr : r ∈ opcodeMap) (hi : decodeAs r.op w = .ok i)
      (hw : w &&& r.mask = r.pattern) : decodeFields w = i.fields :=
    decodeFields_of_selects hr (beq_iff_eq.mpr hw) hi
  exact ⟨route rowAdd (by decide) rfl, route rowSub (by decide) rfl, route rowSll (by decide) rfl,
    route rowAddi (by decide) rfl, route rowLw (by decide) rfl, route rowSw (by decide) rfl,
    route rowBeq (by decide) rfl, route rowJ (by decide) rfl⟩

/-- Settles O7: the ten worked words evaluate. -/
theorem workedDecodes : Obligations.WorkedDecodes := by
  unfold Obligations.WorkedDecodes
  decide

/-! ### Words as their fields (R51 to R53) -/

/-- A word is the fields of format R. -/
theorem formatR_fields (w : Word) :
    formatR (w.extractLsb' 26 6) (fieldRs w) (fieldRt w) (fieldRd w) (w.extractLsb' 6 5) (w.extractLsb' 0 6) = w := by
  simp only [formatR, fieldRs, fieldRt, fieldRd, BitVec.extractLsb'_append_extractLsb'_eq_extractLsb']
  exact BitVec.extractLsb'_eq_self

/-- A word is the fields of format I. -/
theorem formatI_fields (w : Word) :
    formatI (w.extractLsb' 26 6) (fieldRs w) (fieldRt w) (w.extractLsb' 0 16) = w := by
  simp only [formatI, fieldRs, fieldRt, BitVec.extractLsb'_append_extractLsb'_eq_extractLsb']
  exact BitVec.extractLsb'_eq_self

/-- A word is the fields of format J. -/
theorem formatJ_fields (w : Word) : formatJ (w.extractLsb' 26 6) (w.extractLsb' 0 26) = w := by
  simp only [formatJ, BitVec.extractLsb'_append_extractLsb'_eq_extractLsb']
  exact BitVec.extractLsb'_eq_self

section Formats

variable (op fn : BitVec 6) (rs rt rd sh : Reg) (imm : BitVec 16) (index : BitVec 26)

/-- The fields of a word of format R are those it is made of. -/
theorem fields_formatR :
    fieldRs (formatR op rs rt rd sh fn) = rs ∧ fieldRt (formatR op rs rt rd sh fn) = rt ∧
    fieldRd (formatR op rs rt rd sh fn) = rd ∧ fieldShamt (formatR op rs rt rd sh fn) = sh.setWidth 32 := by
  obtain ⟨h, -⟩ := (append_eq_append_iff _ _ _ _).mp (formatR_fields (formatR op rs rt rd sh fn))
  obtain ⟨h, hsh⟩ := (append_eq_append_iff _ _ _ _).mp h
  obtain ⟨h, hrd⟩ := (append_eq_append_iff _ _ _ _).mp h
  obtain ⟨h, hrt⟩ := (append_eq_append_iff _ _ _ _).mp h
  obtain ⟨-, hrs⟩ := (append_eq_append_iff _ _ _ _).mp h
  exact ⟨hrs, hrt, hrd, congrArg _ hsh⟩

/-- The fields of a word of format I are those it is made of. -/
theorem fields_formatI :
    fieldRs (formatI op rs rt imm) = rs ∧ fieldRt (formatI op rs rt imm) = rt ∧
    fieldImm16 (formatI op rs rt imm) = imm.signExtend 32 := by
  obtain ⟨h, himm⟩ := (append_eq_append_iff _ _ _ _).mp (formatI_fields (formatI op rs rt imm))
  obtain ⟨h, hrt⟩ := (append_eq_append_iff _ _ _ _).mp h
  obtain ⟨-, hrs⟩ := (append_eq_append_iff _ _ _ _).mp h
  exact ⟨hrs, hrt, congrArg _ himm⟩

/-- The target of a word of format J is made of its index. -/
theorem fieldTarget_formatJ : fieldTarget (formatJ op index) = index.setWidth 32 <<< 2 := by
  obtain ⟨-, hindex⟩ := (append_eq_append_iff _ _ _ _).mp (formatJ_fields (formatJ op index))
  rw [fieldTarget, hindex]

/-- The word of format R as shifted fields (R77). -/
theorem formatR_eq_or : formatR op rs rt rd sh fn =
    op.setWidth 32 <<< 26 ||| rs.setWidth 32 <<< 21 ||| rt.setWidth 32 <<< 16 ||| rd.setWidth 32 <<< 11 |||
      sh.setWidth 32 <<< 6 ||| fn.setWidth 32 := by
  have h : formatR op rs rt rd sh fn = (op ++ rs ++ rt ++ rd ++ sh ++ fn).setWidth 32 := (BitVec.setWidth_eq _).symm
  rw [h]
  simp only [BitVec.setWidth_append_eq_shiftLeft_setWidth_or, BitVec.shiftLeft_or_distrib, ← BitVec.shiftLeft_add]

/-- The word of format I as shifted fields (R77). -/
theorem formatI_eq_or : formatI op rs rt imm =
    op.setWidth 32 <<< 26 ||| rs.setWidth 32 <<< 21 ||| rt.setWidth 32 <<< 16 ||| imm.setWidth 32 := by
  have h : formatI op rs rt imm = (op ++ rs ++ rt ++ imm).setWidth 32 := (BitVec.setWidth_eq _).symm
  rw [h]
  simp only [BitVec.setWidth_append_eq_shiftLeft_setWidth_or, BitVec.shiftLeft_or_distrib, ← BitVec.shiftLeft_add]

/-- The word of format J as shifted fields (R77). -/
theorem formatJ_eq_or : formatJ op index = op.setWidth 32 <<< 26 ||| index.setWidth 32 := by
  have h : formatJ op index = (op ++ index).setWidth 32 := (BitVec.setWidth_eq _).symm
  rw [h, BitVec.setWidth_append_eq_shiftLeft_setWidth_or]

end Formats

/-- The row of an instruction is one of the map. -/
theorem rowOf_mem_opcodeMap (i : Instr) : Laws.EncodingRow.rowOf i ∈ opcodeMap := by
  cases i <;> simp [Laws.EncodingRow.rowOf, opcodeMap]

/-- The encoding of an instruction selects its row (R55). -/
theorem rowOf_selects_encode (i : Instr) : (Laws.EncodingRow.rowOf i).selects (encode i) = true :=
  match i with
  | .sll rd rs imm  => Laws.EncodingRow.sll rd rs imm
  | .add rd rs rt   => Laws.EncodingRow.add rd rs rt
  | .sub rd rs rt   => Laws.EncodingRow.sub rd rs rt
  | .j target       => Laws.EncodingRow.j target
  | .beq rs rt imm  => Laws.EncodingRow.beq rs rt imm
  | .addi rt rs imm => Laws.EncodingRow.addi rt rs imm
  | .lw rt rs imm   => Laws.EncodingRow.lw rt rs imm
  | .sw rt rs imm   => Laws.EncodingRow.sw rt rs imm

/-- Settles O1: the encoding selects the instruction's row, whose fields carry its operands back; a well-formed
immediate survives its field. -/
theorem decodeInvertsEncode : Obligations.DecodeInvertsEncode := by
  intro i hwf
  rw [decode_eq_decodeAs (rowOf_mem_opcodeMap i) (rowOf_selects_encode i)]
  cases i
  case add rd rs rt =>
    obtain ⟨hrs, hrt, hrd, -⟩ := fields_formatR 0x00 0x20 rs rt rd 0
    simp only [Laws.EncodingRow.rowOf, rowAdd, decodeAs, encode, hrs, hrt, hrd]
  case sub rd rs rt =>
    obtain ⟨hrs, hrt, hrd, -⟩ := fields_formatR 0x00 0x22 rs rt rd 0
    simp only [Laws.EncodingRow.rowOf, rowSub, decodeAs, encode, hrs, hrt, hrd]
  case sll rd rs imm =>
    obtain ⟨-, hrt, hrd, hsh⟩ := fields_formatR 0x00 0x00 0 rs rd (imm.setWidth 5)
    simp only [Laws.EncodingRow.rowOf, rowSll, decodeAs, encode, hrt, hrd, hsh, beq_iff_eq.mp hwf]
  case j target =>
    simp only [Laws.EncodingRow.rowOf, rowJ, decodeAs, encode, fieldTarget_formatJ, beq_iff_eq.mp hwf]
  all_goals
    simp only [Laws.EncodingRow.rowOf, rowBeq, rowAddi, rowLw, rowSw, decodeAs, encode, fields_formatI,
      beq_iff_eq.mp hwf]

/-! ### Immediates of a decoded word (R57) -/

theorem fitsShamt_fieldShamt (w : Word) : fitsShamt (fieldShamt w) = true := by
  simp [fitsShamt, fieldShamt]

/-- The low half of the extended immediate is the field itself. -/
theorem fieldImm16_setWidth (w : Word) : (fieldImm16 w).setWidth 16 = w.extractLsb' 0 16 := by
  rw [fieldImm16]
  ext i hi
  have h32 : i < 32 := by omega
  simp [BitVec.getElem_signExtend, hi, h32]

theorem fitsSigned16_fieldImm16 (w : Word) : fitsSigned16 (fieldImm16 w) = true := by
  rw [fitsSigned16, fieldImm16_setWidth, fieldImm16, beq_self_eq_true]

/-- The index of a `j` target is the field itself. -/
theorem fieldTarget_index (w : Word) : (fieldTarget w).extractLsb' 2 26 = w.extractLsb' 0 26 := by
  rw [fieldTarget]
  ext i hi
  have hrange : 1 < 2 + i ∧ 2 + i < 32 ∧ i < 32 := by omega
  simp [hi, hrange]

theorem fitsJumpTarget_fieldTarget (w : Word) : fitsJumpTarget (fieldTarget w) = true := by
  rw [fitsJumpTarget, fieldTarget_index, fieldTarget, beq_self_eq_true]

/-- What a row decodes is well-formed: the fields of a word are in range (R57). -/
theorem wellFormed_of_decodeAs {op : Op} {w : Word} {i : Instr} (h : decodeAs op w = .ok i) : WellFormed i := by
  cases op <;> cases h
  case ADD | SUB => rfl
  case SLL => exact fitsShamt_fieldShamt w
  case J => exact fitsJumpTarget_fieldTarget w
  all_goals exact fitsSigned16_fieldImm16 w

/-- The shift amount is the field itself. -/
theorem fieldShamt_setWidth (w : Word) : (fieldShamt w).setWidth 5 = w.extractLsb' 6 5 := by
  simp [fieldShamt]

/-- The low eleven bits are the fields `shamt` and `funct` (R51). -/
theorem shamt_append_funct (w : Word) : w.extractLsb' 6 5 ++ w.extractLsb' 0 6 = w.extractLsb' 0 11 :=
  BitVec.extractLsb'_append_extractLsb'_eq_extractLsb' rfl

/-- The high eleven bits are the fields `opcode` and `rs` (R51). -/
theorem opcode_append_rs (w : Word) : w.extractLsb' 26 6 ++ fieldRs w = w.extractLsb' 21 11 :=
  BitVec.extractLsb'_append_extractLsb'_eq_extractLsb' rfl

/-- A word with opcode 0 and the low eleven bits of a `funct` alone is that of an instruction with three registers. -/
theorem formatR_of_funct {w : Word} {fn : BitVec 6} (hop : w.extractLsb' 26 6 = 0)
    (hfn : w.extractLsb' 0 11 = (0 : BitVec 5) ++ fn) :
    formatR 0x00 (fieldRs w) (fieldRt w) (fieldRd w) 0 fn = w := by
  obtain ⟨hsh, hfn⟩ := (append_eq_append_iff _ _ _ _).mp ((shamt_append_funct w).trans hfn)
  have hw := formatR_fields w
  rwa [hop, hsh, hfn] at hw

/-- A word that selects the row of `sll` is that of its fields. -/
theorem formatR_of_sll {w : Word} (h : rowSll.selects w = true) :
    formatR 0x00 0 (fieldRt w) (fieldRd w) (w.extractLsb' 6 5) 0x00 = w := by
  obtain ⟨hhi, hfn⟩ := (rowSll_selects_iff w).mp h
  obtain ⟨hop, hrs⟩ := (append_eq_append_iff _ (0 : BitVec 6) _ (0 : BitVec 5)).mp ((opcode_append_rs w).trans hhi)
  have hw := formatR_fields w
  rwa [hop, hrs, hfn] at hw

/-- A word is that of its fields in format I with its opcode. -/
theorem formatI_of_opcode {w : Word} {op : BitVec 6} (h : w.extractLsb' 26 6 = op) :
    formatI op (fieldRs w) (fieldRt w) ((fieldImm16 w).setWidth 16) = w := by
  rw [fieldImm16_setWidth, ← h, formatI_fields]

/-- Settles O2: an instruction is decoded by a row its word selects; the row fixes the bits that are not its fields. -/
theorem encodeInvertsDecode : Obligations.EncodeInvertsDecode := by
  intro w i h
  obtain ⟨r, hr, hw, hi⟩ := decode_ok h
  refine ⟨wellFormed_of_decodeAs hi, ?_⟩
  simp only [opcodeMap, List.mem_cons, List.not_mem_nil, or_false] at hr
  rcases hr with rfl | rfl | rfl | rfl | rfl | rfl | rfl | rfl <;> cases hi
  · rw [encode, fieldShamt_setWidth, formatR_of_sll hw]
  · obtain ⟨hop, hfn⟩ := (rowAdd_selects_iff w).mp hw
    exact formatR_of_funct hop hfn
  · obtain ⟨hop, hfn⟩ := (rowSub_selects_iff w).mp hw
    exact formatR_of_funct hop hfn
  · rw [encode, fieldTarget_index, ← (rowJ_selects_iff w).mp hw, formatJ_fields]
  · exact formatI_of_opcode ((rowBeq_selects_iff w).mp hw)
  · exact formatI_of_opcode ((rowAddi_selects_iff w).mp hw)
  · exact formatI_of_opcode ((rowLw_selects_iff w).mp hw)
  · exact formatI_of_opcode ((rowSw_selects_iff w).mp hw)

/-! ### The table of words (R77) -/

/-- The immediate field of a word is the immediate cut to 16 bits. -/
theorem setWidth_immediate (imm : Word) : (imm.setWidth 16).setWidth 32 = imm &&& 0xFFFF#32 := by
  apply BitVec.eq_of_toNat_eq
  have hmask : imm.toNat &&& 65535 = imm.toNat % 65536 := Nat.and_two_pow_sub_one_eq_mod imm.toNat 16
  simp only [BitVec.toNat_setWidth, BitVec.toNat_and, BitVec.reduceToNat, hmask]
  omega

/-- The index of a jump target is a quarter of it. -/
theorem setWidth_index {target : Word} (h : fitsJumpTarget target = true) :
    (target.extractLsb' 2 26).setWidth 32 = target / 4 := by
  have hbits := congrArg BitVec.toNat (beq_iff_eq.mp h)
  apply BitVec.eq_of_toNat_eq
  simp only [BitVec.toNat_shiftLeft, BitVec.toNat_setWidth, BitVec.extractLsb'_toNat, BitVec.toNat_udiv,
    BitVec.reduceToNat, Nat.shiftRight_eq_div_pow, Nat.shiftLeft_eq] at hbits ⊢
  omega

/-- Settles O3: the formats as shifted fields, with the constant opcode and funct moved to their place. -/
theorem encodedWordsFollowTable : Obligations.EncodedWordsFollowTable := by
  intro rs rt rd imm target
  refine ⟨?add, ?sub, ?sll, ?addi, ?lw, ?sw, ?beq, ?j⟩
  case sll => exact fun hwf => by simp [encode, formatR_eq_or, beq_iff_eq.mp hwf]
  case j => exact fun hwf => by simp [encode, formatJ_eq_or, setWidth_index hwf]
  all_goals simp [encode, formatR_eq_or, formatI_eq_or, setWidth_immediate]

end Sys2Proof

namespace Sys2Proof.Machine

/-! ### What every cycle does behind Decode (R81, R83 to R88) -/

/-- What Write-back, Memory and Execute leave in the cycle from `s` to `t`, whatever is in Decode. -/
structure BackEnd (s t : State) : Prop where
  x              : t.x = (writeBack s.memWb s).x
  memory         : memoryStage s.dmemMisaligned s.exMem s.dmem = .ok (t.memWb, t.dmem)
  exMem          : t.exMem = execute s.idEx s.exMem s.memWb
  imem           : t.imem = s.imem
  dmemMisaligned : t.dmemMisaligned = s.dmemMisaligned
  cycleCount     : t.cycleCount = s.cycleCount + 1

/-- Write-back writes the same registers before and after the counting of the cycle. -/
theorem writeBack_tick_x (l : Latch) (s : State) : (writeBack l s.tick).x = (writeBack l s).x := by
  unfold writeBack State.setReg
  split_ifs <;> rfl

@[simp] theorem beforeDecode_x (s : State) (mw : Latch) (m : Mem) :
    (beforeDecode s mw m).x = (writeBack s.memWb s).x :=
  writeBack_tick_x s.memWb s

/-- A step leaves what its stages behind Decode leave. -/
theorem step_backEnd {s t : State} (h : step s = .next t) : BackEnd s t := by
  obtain ⟨mw, m, hmem, rfl⟩ := step_next_iff.mp h
  obtain ⟨hx, hdmem, hcount, hexMem, hmemWb, himem, hmis⟩ := decodePart_keeps s (beforeDecode s mw m)
  constructor <;> simp [*]

/-- The cycle of a decoded instruction leaves what its stages behind Decode leave. -/
theorem cycleDecoding_backEnd {d : Decoded} {s t : State} (h : cycleDecoding d s = .next t) : BackEnd s t := by
  obtain ⟨mw, m, hmem, rfl⟩ := cycle_next_iff.mp h
  constructor <;> simp [hmem]

/-- The registers after a cycle are the committed ones (R83, R85). -/
theorem BackEnd.reg {s t : State} (h : BackEnd s t) (q : Reg) : t.reg q = committed s q := by
  rw [← writeBack_reg_eq_committed]
  unfold State.reg
  rw [h.x]

/-! ### What a cycle does in Decode and Fetch (R94 to R107) -/

/-- What an instruction with the fields `d` puts into ID_EX when it passes Decode in `s` (R102). -/
def passedLatch (s : State) (d : Decoded) : Latch :=
  { bubble with
    present := true, pc := s.ifId.pc, op := d.op, rs := d.rs, rt := d.rt, rd := d.rd, imm := d.imm, dest := d.dest,
    rsValue := committed s d.rs, rtValue := committed s d.rt }

/-- What Decode and Fetch leave in a cycle from `s` to `t` with the fields `d` in Decode (R96). -/
inductive DecodeResult (d : Decoded) (s t : State) : Prop
  | stalled (hazard : hazard d s.idEx = true) (idEx : t.idEx = bubble) (ifId : t.ifId = s.ifId) (pc : t.pc = s.pc)
  | taken (hazard : hazard d s.idEx = false) (op : d.op = .BEQ) (equal : committed s d.rs = committed s d.rt)
      (idEx : t.idEx = bubble) (fetched : fetchedFrom s t (branchTarget s.ifId.pc d.imm))
  | jumped (hazard : hazard d s.idEx = false) (op : d.op = .J)
      (idEx : t.idEx = bubble) (fetched : fetchedFrom s t d.imm)
  | passed (hazard : hazard d s.idEx = false) (op : d.op ≠ .J)
      (untaken : ¬ (d.op = .BEQ ∧ committed s d.rs = committed s d.rt))
      (idEx : t.idEx = passedLatch s d) (fetched : fetchedFrom s t s.pc)

/-- Fetch goes on at the `pc` Decode left, without a stall. -/
theorem fetchedFrom_of_decode {s u : State} {p : Word} (hstall : u.stallAsserted = false) (himem : u.imem = s.imem)
    (hpc : u.pc = p) : fetchedFrom s (fetch u) p := by
  rw [← hpc]
  exact fetchedFrom_fetch hstall himem

/-- The cycle of a decoded instruction stalls it, redirects or passes it on. -/
theorem cycleDecoding_result {d : Decoded} {s t : State} (h : cycleDecoding d s = .next t) : DecodeResult d s t := by
  obtain ⟨mw, m, hmem, rfl⟩ := cycle_next_iff.mp h
  have hreg := beforeDecode_reg_eq_committed s mw m
  obtain ⟨hh, hd⟩ | ⟨hh, hop, heq, hd⟩ | ⟨hh, hop, hd⟩ | ⟨hh, hb, hj, hd⟩ :=
    decodeStage_cases d s.ifId s.idEx (beforeDecode s mw m)
  · rw [hd, fetch_stalled rfl]
    exact .stalled hh rfl (beforeDecode_ifId s mw m) (beforeDecode_pc s mw m)
  · rw [hreg, hreg] at heq
    rw [hd]
    exact .taken hh hop heq (fetch_idEx _) (fetchedFrom_of_decode (by simp [takenBranchAction])
      (by simp [takenBranchAction]) rfl)
  · rw [hd]
    exact .jumped hh hop (fetch_idEx _) (fetchedFrom_of_decode (by simp [jumpAction]) (by simp [jumpAction]) rfl)
  · rw [hreg, hreg] at hb
    rw [hd]
    refine .passed hh hj hb ?_ (fetchedFrom_of_decode (by simp) (by simp) (by simp))
    rw [fetch_idEx, State.setIdEx_idEx, issuedLatch, hreg, hreg]
    rfl

/-- A step with an instruction in IF_ID stalls it, redirects or passes it on. -/
theorem step_result {s t : State} (h : step s = .next t) (hp : s.ifId.present = true) :
    DecodeResult (decodeFields s.ifId.instr) s t := by
  rw [step_of_present hp] at h
  exact cycleDecoding_result h

end Sys2Proof.Machine

namespace Sys2Proof.Machine

/-! ### Addresses that are multiples of 4 (R108 item 3) -/

/-- The sum of two aligned addresses is aligned. -/
theorem aligned_add {p q : Word} (hp : aligned p = true) (hq : aligned q = true) : aligned (p + q) = true := by
  simp only [aligned, beq_iff_eq, BitVec.toNat_add] at hp hq ⊢
  omega

/-- A word shifted left by two is aligned. -/
theorem aligned_shiftLeft_two (w : Word) : aligned (w <<< 2) = true := by
  simp only [aligned, beq_iff_eq, BitVec.toNat_shiftLeft, Nat.shiftLeft_eq]
  omega

/-- The next address after an aligned one is aligned. -/
theorem aligned_add_four {p : Word} (h : aligned p = true) : aligned (p + 4) = true :=
  aligned_add h rfl

/-- A branch target is as aligned as the address of the `beq` (R100). -/
theorem aligned_branchTarget {p : Word} (imm : Word) (h : aligned p = true) :
    aligned (branchTarget p imm) = true :=
  aligned_add (aligned_add_four h) (aligned_shiftLeft_two imm)

/-! ### What a decoded record can be (R54 to R59) -/

/-- A record decoded from a word is that of `OTHER` or of an instruction. -/
theorem decodeFields_cases (w : Word) :
    decodeFields w = otherFields ∨ ∃ i, decode w = .ok i ∧ decodeFields w = i.fields := by
  unfold decodeFields
  cases decode w with
  | ok i => exact .inr ⟨i, rfl, rfl⟩
  | error e => exact .inl rfl

/-- A `j` decoded from a word has an aligned target: it is well-formed (R57). -/
theorem aligned_imm_of_jump {w : Word} (h : (decodeFields w).op = .J) : aligned (decodeFields w).imm = true := by
  obtain hother | ⟨i, hi, hfields⟩ := decodeFields_cases w
  · rw [hother] at h
    cases h
  · obtain ⟨hwf, -⟩ := encodeInvertsDecode w i hi
    rw [hfields] at h ⊢
    cases i with
    | j target =>
      rw [Instr.fields, ← beq_iff_eq.mp hwf]
      exact aligned_shiftLeft_two _
    | _ => cases h

/-- What the decoder gives is an instruction's or unrecognized, and has a destination only if its op writes one
(R56). -/
structure Lawful (d : Decoded) : Prop where
  op   : d.op ≠ .NONE
  dest : d.dest ≠ 0 → d.op ∈ [Op.ADD, Op.SUB, Op.ADDI, Op.SLL, Op.LW]

theorem lawful_fields (i : Instr) : Lawful i.fields := by
  cases i <;> constructor <;> simp [Instr.fields]

theorem lawful_otherFields : Lawful otherFields := by
  constructor <;> simp [otherFields]

theorem lawful_decodeFields (w : Word) : Lawful (decodeFields w) := by
  obtain h | ⟨i, -, h⟩ := decodeFields_cases w <;> rw [h]
  · exact lawful_otherFields
  · exact lawful_fields i

/-- What passes Decode holds a legal op and destination (R108 item 4). -/
theorem latchOpOk_passedLatch {s : State} {d : Decoded} (hd : Lawful d) (hj : d.op ≠ .J) :
    latchOpOk (passedLatch s d) := by
  refine fun _ => ⟨?_, hd.dest⟩
  have hnone := hd.op
  show d.op ∈ _
  cases hop : d.op <;> simp_all

/-! ### What Fetch leaves (R106, R107) -/

/-- Fetch installs the word at the address it works at, or finds the end of the program there. -/
theorem fetchedFrom_cases {s t : State} {p : Word} (h : fetchedFrom s t p) :
    (s.inProgram p = true ∧ t.pc = p + 4 ∧ t.ifId = fetchedLatch p (s.fetchWord p)) ∨
    (s.inProgram p = false ∧ t.pc = p ∧ t.ifId = bubble) := by
  obtain ⟨hinside, houtside⟩ := h
  by_cases hlt : p.toNat < 4 * s.imem.length
  · exact .inl ⟨decide_eq_true hlt, hinside hlt⟩
  · exact .inr ⟨decide_eq_false hlt, houtside (Nat.le_of_not_lt hlt)⟩

/-- What holds of `pc` and IF_ID after every cycle (R108 items 2, 3, 5). -/
structure FetchOk (t : State) : Prop where
  clean     : bubbleClean t.ifId
  pcAligned : aligned t.pc = true
  pcOk      : latchPcOk t t.ifId
  word      : fetchedWordOk t

/-- A fetch from an aligned address leaves it. -/
theorem FetchOk.of_fetchedFrom {s t : State} {p : Word} (h : fetchedFrom s t p) (himem : t.imem = s.imem)
    (hp : aligned p = true) : FetchOk t := by
  obtain ⟨hin, hpc, hifId⟩ | ⟨-, hpc, hifId⟩ := fetchedFrom_cases h
  · constructor
    case clean => rw [hifId]; nofun
    case pcAligned => rw [hpc]; exact aligned_add_four hp
    case pcOk => rw [hifId]; exact fun _ => ⟨hp, by rwa [State.inProgram, himem]⟩
    case word => rw [fetchedWordOk, hifId, State.fetchWord, State.fetchWord, himem]; exact fun _ => rfl
  · constructor
    case clean => rw [hifId]; exact fun _ => rfl
    case pcAligned => rwa [hpc]
    case pcOk => rw [hifId]; nofun
    case word => rw [fetchedWordOk, hifId]; nofun

/-- A stall keeps it. -/
theorem FetchOk.of_kept {s t : State} (h : FetchOk s) (hifId : t.ifId = s.ifId) (hpc : t.pc = s.pc)
    (himem : t.imem = s.imem) : FetchOk t := by
  obtain ⟨hclean, haligned, hpcOk, hword⟩ := h
  constructor
  case clean => rwa [hifId]
  case pcAligned => rwa [hpc]
  case pcOk => rwa [hifId, latchPcOk, State.inProgram, himem]
  case word => rwa [fetchedWordOk, hifId, State.fetchWord, himem]

/-- A cycle in which an aligned instruction is in Decode leaves it. -/
theorem FetchOk.of_decodeResult {s t : State} {d : Decoded} (hs : FetchOk s) (hpresent : s.ifId.present = true)
    (himem : t.imem = s.imem) (hjump : d.op = .J → aligned d.imm = true) (h : DecodeResult d s t) : FetchOk t := by
  cases h with
  | stalled _ _ hifId hpc => exact hs.of_kept hifId hpc himem
  | taken _ _ _ _ hfetch => exact .of_fetchedFrom hfetch himem (aligned_branchTarget _ (hs.pcOk hpresent).1)
  | jumped _ hop _ hfetch => exact .of_fetchedFrom hfetch himem (hjump hop)
  | passed _ _ _ _ hfetch => exact .of_fetchedFrom hfetch himem hs.pcAligned

/-- Every step keeps it (R108 items 2, 3, 5). -/
theorem step_keeps_fetchOk {s t : State} (hs : FetchOk s) (h : step s = .next t) : FetchOk t := by
  have himem := (step_backEnd h).imem
  by_cases hp : s.ifId.present = true
  · exact hs.of_decodeResult hp himem aligned_imm_of_jump (step_result h hp)
  · obtain ⟨-, -, hfetch⟩ := emptyDecodePassesBubble s t (by simpa using hp) h
    exact .of_fetchedFrom hfetch himem hs.pcAligned

/-! ### What each latch past Decode holds (R108 items 2 to 4) -/

/-- What holds of a latch past Decode after every cycle: clean, at an instruction's address, with a legal op. -/
structure LatchOk (s : State) (l : Latch) : Prop where
  clean : bubbleClean l
  pcOk  : latchPcOk s l
  opOk  : latchOpOk l

theorem latchOk_bubble (s : State) : LatchOk s bubble := ⟨fun _ => rfl, nofun, nofun⟩

/-- A latch that holds the same instruction in a state with the same program is as good. -/
theorem LatchOk.of_same {s t : State} {l k : Latch} (h : LatchOk s l) (himem : t.imem = s.imem)
    (hk : k = bubble ∨ k.present = true ∧ l.present = true ∧ k.pc = l.pc ∧ k.op = l.op ∧ k.dest = l.dest) :
    LatchOk t k := by
  obtain rfl | ⟨hkp, hlp, hpc, hop, hdest⟩ := hk
  · exact latchOk_bubble t
  · constructor
    case clean => rw [bubbleClean, hkp]; nofun
    case pcOk =>
      rw [latchPcOk, hpc, State.inProgram, himem]
      exact fun _ => h.pcOk hlp
    case opOk =>
      rw [latchOpOk, hop, hdest]
      exact fun _ => h.opOk hlp

/-- Execute and the Memory stage pass an instruction on, or a bubble. -/
theorem execute_same (l f1 f2 : Latch) :
    execute l f1 f2 = bubble ∨ (execute l f1 f2).present = true ∧ l.present = true ∧
      (execute l f1 f2).pc = l.pc ∧ (execute l f1 f2).op = l.op ∧ (execute l f1 f2).dest = l.dest := by
  by_cases hp : l.present = true
  · rw [execute_present _ _ hp]
    exact .inr ⟨hp, hp, rfl, rfl, rfl⟩
  · exact .inl (execute_absent _ _ (by simpa using hp))

theorem memoryStage_same {p : DmemMisaligned} {l mw : Latch} {m m' : Mem} (h : memoryStage p l m = .ok (mw, m')) :
    mw = bubble ∨ mw.present = true ∧ l.present = true ∧ mw.pc = l.pc ∧ mw.op = l.op ∧ mw.dest = l.dest := by
  by_cases hp : l.present = true
  · obtain ⟨v, rfl⟩ := memoryStage_fields h hp
    exact .inr ⟨hp, hp, rfl, rfl, rfl⟩
  · obtain ⟨-, hw, -⟩ | ⟨h, -⟩ | ⟨h, -⟩ | ⟨h, -⟩ := memoryStage_ok h
    · exact .inl hw
    all_goals exact absurd h hp

/-- What Decode leaves in ID_EX is good, if the instruction is lawful and IF_ID holds a good address. -/
theorem DecodeResult.latchOk_idEx {s t : State} {d : Decoded} (h : DecodeResult d s t) (hd : Lawful d)
    (hpc : aligned s.ifId.pc = true ∧ s.inProgram s.ifId.pc = true) (himem : t.imem = s.imem) : LatchOk t t.idEx := by
  cases h with
  | stalled _ hidEx | taken _ _ _ hidEx | jumped _ _ hidEx =>
    rw [hidEx]
    exact latchOk_bubble t
  | passed _ hj _ hidEx =>
    rw [hidEx]
    refine ⟨nofun, fun _ => ?_, latchOpOk_passedLatch hd hj⟩
    rw [State.inProgram, himem]
    exact hpc

/-- No consumer of its destination is behind a `LW` that was in ID_EX: Decode stalls it (R108 item 6). -/
theorem DecodeResult.loadUseOk {s t : State} {d : Decoded} (h : DecodeResult d s t) (hback : BackEnd s t) :
    loadUseOk t := by
  intro hp hlw hdest hidExPresent hconsumes
  cases h with
  | stalled _ hidEx | taken _ _ _ hidEx | jumped _ _ hidEx =>
    rw [hidEx] at hidExPresent
    cases hidExPresent
  | passed hh _ _ hidEx =>
    obtain hb | ⟨-, -, -, hop, hd⟩ := execute_same s.idEx s.exMem s.memWb <;> rw [← hback.exMem] at *
    · rw [hb] at hp
      cases hp
    · rw [hop] at hlw
      rw [hd] at hdest hconsumes
      rw [hidEx] at hconsumes
      rw [Bool.eq_false_iff] at hh
      refine hh ((hazard_eq_true_iff d s.idEx).mpr ⟨hlw, hdest, ?_⟩)
      obtain ⟨hr, hop⟩ | ⟨hr, hop⟩ := hconsumes
      · exact .inl ⟨hop, hr⟩
      · exact .inr ⟨hop, hr⟩

/-- Cell 0 of the register array stays as it is (R12). -/
theorem writeBack_x_zero (l : Latch) (s : State) : (writeBack l s).x[0] = s.x[0] := by
  unfold writeBack
  split
  · exact s.setReg_x_zero l.dest (result l)
  · rfl

/-- Settles O26: Fetch keeps its part, each latch takes over an instruction that was good in the latch before it, and
the Hazard Detector keeps item 6. -/
theorem stepKeepsPipelineInvariants : Obligations.StepKeepsPipelineInvariants := by
  rintro s t ⟨hzero, ⟨hci, hcd, hce, hcm⟩, ⟨hpc, hpi, hpd, hpe, hpm⟩, ⟨hod, hoe, hom⟩, hword, -⟩ h
  have hback := step_backEnd h
  have hfetch := step_keeps_fetchOk ⟨hci, hpc, hpi, hword⟩ h
  have hdecode : LatchOk t t.idEx ∧ loadUseOk t := by
    by_cases hp : s.ifId.present = true
    · have hres := step_result h hp
      exact ⟨hres.latchOk_idEx (lawful_decodeFields _) (hpi hp) hback.imem, hres.loadUseOk hback⟩
    · obtain ⟨hidEx, -⟩ := emptyDecodePassesBubble s t (by simpa using hp) h
      rw [loadUseOk, hidEx]
      exact ⟨latchOk_bubble t, nofun⟩
  obtain ⟨hidEx, hload⟩ := hdecode
  have hexMem : LatchOk t t.exMem := by
    rw [hback.exMem]
    exact LatchOk.of_same ⟨hcd, hpd, hod⟩ hback.imem (execute_same _ _ _)
  have hmemWb : LatchOk t t.memWb := LatchOk.of_same ⟨hce, hpe, hoe⟩ hback.imem (memoryStage_same hback.memory)
  refine ⟨?_, ⟨hfetch.clean, hidEx.clean, hexMem.clean, hmemWb.clean⟩,
    ⟨hfetch.pcAligned, hfetch.pcOk, hidEx.pcOk, hexMem.pcOk, hmemWb.pcOk⟩,
    ⟨hidEx.opOk, hexMem.opOk, hmemWb.opOk⟩, hfetch.word, hload⟩
  rw [zeroRegOk, ← hzero, ← writeBack_x_zero s.memWb s]
  simp only [hback.x]

end Sys2Proof.Machine

namespace Sys2Proof.Machine

/-! ### The links between the latches (R83, R97, R107) -/

/-- After a fetch `pc` follows the instruction in IF_ID. -/
theorem pc_of_fetchedFrom {s t : State} {p : Word} (h : fetchedFrom s t p) (hp : t.ifId.present = true) :
    t.pc = t.ifId.pc + 4 := by
  obtain ⟨-, hpc, hifId⟩ | ⟨-, -, hifId⟩ := fetchedFrom_cases h
  · rw [hpc, hifId]
    rfl
  · rw [hifId] at hp
    cases hp

/-- ID_EX holds the committed values of its registers. -/
abbrev OperandsRead (s : State) : Prop :=
  s.idEx.present = true → s.idEx.rsValue = s.reg s.idEx.rs ∧ s.idEx.rtValue = s.reg s.idEx.rt

theorem operandsRead_of_bubble {t : State} (h : t.idEx = bubble) : OperandsRead t := by
  rw [OperandsRead, h]
  nofun

/-- Decode reads what Write-back of the same cycle leaves (R97). -/
theorem DecodeResult.operandsRead {s t : State} {d : Decoded} (h : DecodeResult d s t) (hback : BackEnd s t) :
    OperandsRead t := by
  cases h with
  | stalled _ hidEx | taken _ _ _ hidEx | jumped _ _ hidEx => exact operandsRead_of_bubble hidEx
  | passed _ _ _ hidEx =>
    rw [OperandsRead, hidEx]
    exact fun _ => ⟨(hback.reg _).symm, (hback.reg _).symm⟩

/-- Settles O28: Fetch links `pc` to IF_ID, or a stall keeps both; Decode reads the committed registers. -/
theorem stepKeepsLatchLinks : Obligations.StepKeepsLatchLinks := by
  rintro s t ⟨hlink, -⟩ h
  by_cases hp : s.ifId.present = true
  · have hres := step_result h hp
    refine ⟨?_, hres.operandsRead (step_backEnd h)⟩
    cases hres with
    | stalled _ _ hifId hpc => rwa [hifId, hpc]
    | taken _ _ _ _ hfetch | jumped _ _ _ hfetch | passed _ _ _ _ hfetch => exact pc_of_fetchedFrom hfetch
  · obtain ⟨hidEx, -, hfetch⟩ := emptyDecodePassesBubble s t (by simpa using hp) h
    exact ⟨pc_of_fetchedFrom hfetch, operandsRead_of_bubble hidEx⟩

/-! ### Completing instructions one after the other (R110) -/

/-- The sequential state at `pc = p` once the instruction in MEM_WB has completed. -/
def wroteBack (s : State) (p : Word) : SeqState :=
  completeMemWb s.memWb ⟨s.x, s.dmem, p, s.imem, s.dmemMisaligned⟩

/-- The sequential state at `pc = p` once the instructions in MEM_WB and EX_MEM have completed. -/
def executed (s : State) (p : Word) : Except Refusal SeqState := completeExMem s.exMem (wroteBack s p)

/-- The sequential reading completes ID_EX after the two older instructions. -/
theorem drained_eq_bind (s : State) : drained s = (executed s (sequentialPc s)).bind (completeIdEx s.idEx) := by
  unfold drained executed wroteBack
  cases completeExMem s.exMem _ <;> rfl

@[simp] theorem wroteBack_dmem (s : State) (p : Word) : (wroteBack s p).dmem = s.dmem := completeMemWb_dmem _ _
@[simp] theorem wroteBack_pc (s : State) (p : Word) : (wroteBack s p).pc = p := completeMemWb_pc _ _
@[simp] theorem wroteBack_imem (s : State) (p : Word) : (wroteBack s p).imem = s.imem := completeMemWb_imem _ _
@[simp] theorem wroteBack_dmemMisaligned (s : State) (p : Word) :
    (wroteBack s p).dmemMisaligned = s.dmemMisaligned := completeMemWb_dmemMisaligned _ _

/-- Completing MEM_WB writes the registers that Write-back writes (R85). -/
theorem wroteBack_x (s : State) (p : Word) : (wroteBack s p).x = (writeBack s.memWb s).x := by
  unfold wroteBack completeMemWb writeBack SeqState.setReg State.setReg
  split_ifs <;> rfl

/-- The registers with MEM_WB completed are the committed ones. -/
theorem wroteBack_reg (s : State) (p : Word) (q : Reg) : (wroteBack s p).reg q = committed s q := by
  rw [← writeBack_reg_eq_committed]
  unfold SeqState.reg State.reg
  rw [wroteBack_x]

/-- Two sequential states with the same fields are the same. -/
theorem SeqState.eq_of_fields {a b : SeqState} (hx : a.x = b.x) (hdmem : a.dmem = b.dmem) (hpc : a.pc = b.pc)
    (himem : a.imem = b.imem) (hmis : a.dmemMisaligned = b.dmemMisaligned) : a = b := by
  cases a
  cases b
  simp_all

/-- Completing EX_MEM is its Memory stage, then the Write-back of what that gives. -/
theorem completeExMem_ok {l mw : Latch} {a : SeqState} {m : Mem}
    (h : memoryStage a.dmemMisaligned l a.dmem = .ok (mw, m)) :
    completeExMem l a = .ok (completeMemWb mw { a with dmem := m }) := by
  rw [completeExMem, h]

/-- A cycle completes the Memory stage of EX_MEM and the Write-back of MEM_WB, and leaves the rest to complete. -/
theorem BackEnd.executed {s t : State} (h : BackEnd s t) (p : Word) : executed s p = .ok (wroteBack t p) := by
  have hmem : memoryStage (wroteBack s p).dmemMisaligned s.exMem (wroteBack s p).dmem = .ok (t.memWb, t.dmem) := by
    rw [wroteBack_dmem, wroteBack_dmemMisaligned, h.memory]
  have hsame : { wroteBack s p with dmem := t.dmem } = SeqState.mk t.x t.dmem p t.imem t.dmemMisaligned :=
    SeqState.eq_of_fields ((wroteBack_x s p).trans h.x.symm) rfl (wroteBack_pc s p)
      ((wroteBack_imem s p).trans h.imem.symm) ((wroteBack_dmemMisaligned s p).trans h.dmemMisaligned.symm)
  rw [Machine.executed, completeExMem_ok hmem, hsame]
  rfl

/-! ### Forwarding gives the value in program order (R92, R93) -/

/-- What Execute needs of the latches for its operands and its destination to be those in program order. -/
structure ExecuteOk (s : State) : Prop where
  exMemClean   : bubbleClean s.exMem
  memWbClean   : bubbleClean s.memWb
  idExOp       : latchOpOk s.idEx
  loadUse      : loadUseOk s
  operandsRead : OperandsRead s

theorem ExecuteOk.of_inv {s : State} (hinv : PipelineInv s) (hlink : Linked s) : ExecuteOk s := by
  obtain ⟨-, ⟨-, -, hexMem, hmemWb⟩, -, ⟨hop, -, -⟩, -, hload⟩ := hinv
  exact ⟨hexMem, hmemWb, hop, hload, hlink.2⟩

/-- Every cycle of a lawful instruction leaves it, from any state. -/
theorem ExecuteOk.of_decodeResult {s t : State} {d : Decoded} (hd : Lawful d) (hback : BackEnd s t)
    (h : DecodeResult d s t) : ExecuteOk t := by
  constructor
  case exMemClean =>
    rw [hback.exMem]
    obtain hb | ⟨hp, -⟩ := execute_same s.idEx s.exMem s.memWb
    · exact fun _ => hb
    · exact fun habsent => absurd hp (by simp [habsent])
  case memWbClean =>
    obtain hb | ⟨hp, -⟩ := memoryStage_same hback.memory
    · exact fun _ => hb
    · exact fun habsent => absurd hp (by simp [habsent])
  case idExOp =>
    cases h with
    | stalled _ hidEx | taken _ _ _ hidEx | jumped _ _ hidEx => rw [hidEx]; nofun
    | passed _ hj _ hidEx => rw [hidEx]; exact latchOpOk_passedLatch hd hj
  case loadUse => exact h.loadUseOk hback
  case operandsRead => exact h.operandsRead hback

/-- Completing a latch of MEM_WB writes its result to its destination. -/
theorem completeMemWb_reg (l : Latch) (a : SeqState) (q : Reg) :
    (completeMemWb l a).reg q = if l.present = true ∧ l.dest ≠ 0 ∧ q = l.dest then result l else a.reg q := by
  unfold completeMemWb
  by_cases hp : l.present = true
  · rw [if_pos hp, SeqState.reg_setReg]
    simp only [hp, true_and]
  · rw [if_neg hp, if_neg (fun h => hp h.1)]

/-- What is forwarded from MEM_WB, if anything is to be, is the committed value (R92). -/
theorem forward_memWb {s : State} (hclean : bubbleClean s.memWb) (q : Reg) :
    (if s.memWb.dest ≠ 0 ∧ s.memWb.dest = q then result s.memWb else s.reg q) = committed s q := by
  rw [← writeBack_reg_eq_committed, writeBack_reg]
  by_cases hp : s.memWb.present = true
  · simp only [hp, true_and, eq_comm (a := q)]
  · have hb := hclean (by simpa using hp)
    simp [hb, bubble]

/-- The forwarded value of a register that no `LW` in EX_MEM will write is its value in program order. -/
theorem forward_eq_executed {s : State} {a : SeqState} {p : Word} {q : Reg} (hexMem : bubbleClean s.exMem)
    (hmemWb : bubbleClean s.memWb) (h : executed s p = .ok a)
    (hload : s.exMem.present = true → s.exMem.op = .LW → s.exMem.dest ≠ 0 → s.exMem.dest ≠ q) :
    forward q (s.reg q) s.exMem s.memWb = a.reg q := by
  unfold executed completeExMem at h
  split at h
  case h_2 => cases h
  case h_1 mw m hmem =>
    cases h
    have hrest : SeqState.reg { wroteBack s p with dmem := m } q = committed s q := wroteBack_reg s p q
    rw [forward, forward_memWb hmemWb, completeMemWb_reg, hrest]
    by_cases hp : s.exMem.present = true
    · obtain ⟨v, rfl⟩ := memoryStage_fields hmem hp
      by_cases hdest : s.exMem.dest ≠ 0 ∧ s.exMem.dest = q
      · have hop : s.exMem.op ≠ .LW := fun hop => hload hp hop hdest.1 hdest.2
        rw [if_pos hdest, if_pos ⟨hp, hdest.1, hdest.2.symm⟩, result, if_neg hop]
      · rw [if_neg hdest, if_neg (fun ⟨_, hne, heq⟩ => hdest ⟨hne, heq.symm⟩)]
    · have hb := hexMem (by simpa using hp)
      obtain hmw | ⟨-, hp', -⟩ := memoryStage_same hmem
      · rw [hb, hmw]
        rfl
      · exact absurd hp' hp

/-- The operands Execute resolves for the registers its instruction consumes are those in program order. -/
theorem ExecuteOk.operands {s : State} {a : SeqState} {p : Word} (hs : ExecuteOk s) (hp : s.idEx.present = true)
    (h : executed s p = .ok a) :
    (consumesRs s.idEx.op = true → forward s.idEx.rs s.idEx.rsValue s.exMem s.memWb = a.reg s.idEx.rs) ∧
    (consumesRt s.idEx.op = true → forward s.idEx.rt s.idEx.rtValue s.exMem s.memWb = a.reg s.idEx.rt) := by
  obtain ⟨hrs, hrt⟩ := hs.operandsRead hp
  rw [hrs, hrt]
  constructor <;> intro hop <;> refine forward_eq_executed hs.exMemClean hs.memWbClean h fun he hlw hd heq => ?_
  · exact hs.loadUse he hlw hd hp (.inl ⟨heq.symm, by simpa [consumesRs] using hop⟩)
  · exact hs.loadUse he hlw hd hp (.inr ⟨heq.symm, by simpa [consumesRt, or_assoc] using hop⟩)

/-- Settles O48: the invariants give what forwarding needs. -/
theorem forwardingGivesProgramOrder : Obligations.ForwardingGivesProgramOrder :=
  fun _ _ hinv hlink hp h => (ExecuteOk.of_inv hinv hlink).operands hp h

/-! ### Execute does what the sequential machine does -/

/-- The ALU looks at the operands its op consumes only (R90, R98). -/
theorem alu_congr {op : Op} {a a' b b' : Word} (imm : Word) (ha : consumesRs op = true → a = a')
    (hb : consumesRt op = true → b = b') : alu op a b imm = alu op a' b' imm := by
  cases op <;> simp_all [alu, consumesRs, consumesRt]

/-! #### The Memory stage and the sequential machine, op by op (R87, R110) -/

theorem memoryStage_load {p : DmemMisaligned} {l : Latch} (m : Mem) (hp : l.present = true) (hop : l.op = .LW) :
    memoryStage p l m = (memRead p m l.aluResult).map fun v => ({ l with loadedValue := v }, m) := by
  rw [memoryStage, if_pos hp, if_pos hop]
  cases memRead p m l.aluResult <;> rfl

theorem memoryStage_store {p : DmemMisaligned} {l : Latch} (m : Mem) (hp : l.present = true) (hop : l.op = .SW) :
    memoryStage p l m = (memWrite p m l.aluResult l.storeValue).map fun m' => (l, m') := by
  rw [memoryStage, if_pos hp, if_neg (by simp [hop]), if_pos hop]
  cases memWrite p m l.aluResult l.storeValue <;> rfl

theorem memoryStage_other {p : DmemMisaligned} {l : Latch} (m : Mem) (hp : l.present = true) (hlw : l.op ≠ .LW)
    (hsw : l.op ≠ .SW) : memoryStage p l m = .ok (l, m) := by
  rw [memoryStage, if_pos hp, if_neg hlw, if_neg hsw]

theorem SeqState.apply_load (rs rt : Reg) (imm : Word) (dest : Reg) (a : SeqState) :
    a.apply .LW rs rt imm dest = (memRead a.dmemMisaligned a.dmem (a.reg rs + imm)).map (a.setReg dest) := by
  rw [SeqState.apply, if_pos rfl, alu]
  cases memRead a.dmemMisaligned a.dmem (a.reg rs + imm) <;> rfl

theorem SeqState.apply_store (rs rt : Reg) (imm : Word) (dest : Reg) (a : SeqState) :
    a.apply .SW rs rt imm dest =
      (memWrite a.dmemMisaligned a.dmem (a.reg rs + imm) (a.reg rt)).map fun m => { a with dmem := m } := by
  rw [SeqState.apply, if_neg (by decide), if_pos rfl, alu]
  cases memWrite a.dmemMisaligned a.dmem (a.reg rs + imm) (a.reg rt) <;> rfl

theorem SeqState.apply_other {op : Op} (hlw : op ≠ .LW) (hsw : op ≠ .SW) (rs rt : Reg) (imm : Word) (dest : Reg)
    (a : SeqState) : a.apply op rs rt imm dest = .ok (a.setReg dest (alu op (a.reg rs) (a.reg rt) imm)) := by
  rw [SeqState.apply, if_neg hlw, if_neg hsw]

/-- Completing an executed instruction is executing it atomically, if its ALU result and store value are those of the
sequential operands and a `SW` has no destination. -/
theorem completeExMem_of_operands {l : Latch} {a : SeqState} (hp : l.present = true)
    (hres : l.aluResult = alu l.op (a.reg l.rs) (a.reg l.rt) l.imm)
    (hstore : l.op = .SW → l.storeValue = a.reg l.rt ∧ l.dest = 0) :
    completeExMem l a = a.apply l.op l.rs l.rt l.imm l.dest := by
  unfold completeExMem
  by_cases hlw : l.op = .LW
  · rw [memoryStage_load _ hp hlw, hres, hlw, SeqState.apply_load, alu]
    cases memRead a.dmemMisaligned a.dmem (a.reg l.rs + l.imm) with
    | ok v => simp [Except.map, completeMemWb, hp, result]
    | error r => rfl
  · by_cases hsw : l.op = .SW
    · obtain ⟨hvalue, hdest⟩ := hstore hsw
      rw [memoryStage_store _ hp hsw, hres, hvalue, hsw, SeqState.apply_store, alu]
      cases memWrite a.dmemMisaligned a.dmem (a.reg l.rs + l.imm) (a.reg l.rt) with
      | ok m => simp only [Except.map, completeMemWb, hp, if_true, hdest, SeqState.setReg_zero]
      | error r => rfl
    · rw [memoryStage_other _ hp hlw hsw, SeqState.apply_other hlw hsw, ← hres]
      simp [completeMemWb, hp, result, hlw]

/-- Completing what Execute makes of ID_EX is completing ID_EX in program order. -/
theorem ExecuteOk.completeExMem_execute {s : State} {a : SeqState} {p : Word} (hs : ExecuteOk s)
    (h : executed s p = .ok a) :
    completeExMem (execute s.idEx s.exMem s.memWb) a = completeIdEx s.idEx a := by
  by_cases hp : s.idEx.present = true
  case neg =>
    rw [execute_absent _ _ (by simpa using hp), completeIdEx, if_neg hp]
    rfl
  case pos =>
    obtain ⟨hrs, hrt⟩ := hs.operands hp h
    obtain ⟨-, hdest⟩ := hs.idExOp hp
    rw [execute_present _ _ hp, completeIdEx, if_pos hp]
    refine completeExMem_of_operands hp (alu_congr s.idEx.imm hrs hrt) fun hsw => ⟨hrt ?_, ?_⟩
    · have hop : s.idEx.op = .SW := hsw
      rw [hop]
      rfl
    · by_contra hne
      exact absurd (hdest hne) (by simp_all)

/-- A cycle advances what has been executed by the instruction in ID_EX. -/
theorem BackEnd.executed_next {s t : State} (h : BackEnd s t) (hs : ExecuteOk s) (p : Word) :
    Machine.executed t p = completeIdEx s.idEx (wroteBack t p) := by
  rw [Machine.executed, h.exMem, hs.completeExMem_execute (h.executed p)]

/-- Before a cycle the sequential reading is what that cycle leaves, once the instruction in ID_EX has completed. -/
theorem BackEnd.drained {s t : State} (h : BackEnd s t) :
    Machine.drained s = completeIdEx s.idEx (wroteBack t (sequentialPc s)) := by
  rw [drained_eq_bind, h.executed]
  rfl

/-! ### The sequential `pc` plays no part in what an instruction does to registers and memory -/

/-- The sequential state with another `pc`. -/
def SeqState.withPc (a : SeqState) (p : Word) : SeqState := { a with pc := p }

@[simp] theorem SeqState.withPc_reg (a : SeqState) (p : Word) (r : Reg) : (a.withPc p).reg r = a.reg r := rfl
@[simp] theorem SeqState.withPc_dmem (a : SeqState) (p : Word) : (a.withPc p).dmem = a.dmem := rfl
@[simp] theorem SeqState.withPc_dmemMisaligned (a : SeqState) (p : Word) :
    (a.withPc p).dmemMisaligned = a.dmemMisaligned := rfl

theorem wroteBack_withPc (s : State) (p q : Word) : (wroteBack s p).withPc q = wroteBack s q := by
  apply SeqState.eq_of_fields <;> simp [SeqState.withPc, wroteBack_x]

theorem SeqState.setReg_withPc (a : SeqState) (p : Word) (r : Reg) (v : Word) :
    (a.withPc p).setReg r v = (a.setReg r v).withPc p := by
  unfold SeqState.setReg
  split <;> rfl

theorem SeqState.apply_withPc (op : Op) (rs rt : Reg) (imm : Word) (dest : Reg) (a : SeqState) (p : Word) :
    (a.withPc p).apply op rs rt imm dest = (a.apply op rs rt imm dest).map (·.withPc p) := by
  by_cases hlw : op = .LW
  · rw [hlw, SeqState.apply_load, SeqState.apply_load]
    simp only [SeqState.withPc_reg, SeqState.withPc_dmem, SeqState.withPc_dmemMisaligned]
    cases memRead a.dmemMisaligned a.dmem (a.reg rs + imm) with
    | ok v => exact congrArg Except.ok (a.setReg_withPc p dest v)
    | error r => rfl
  · by_cases hsw : op = .SW
    · rw [hsw, SeqState.apply_store, SeqState.apply_store]
      simp only [SeqState.withPc_reg, SeqState.withPc_dmem, SeqState.withPc_dmemMisaligned]
      cases memWrite a.dmemMisaligned a.dmem (a.reg rs + imm) (a.reg rt) <;> rfl
    · rw [SeqState.apply_other hlw hsw, SeqState.apply_other hlw hsw, SeqState.setReg_withPc]
      rfl

theorem completeIdEx_withPc (l : Latch) (a : SeqState) (p : Word) :
    completeIdEx l (a.withPc p) = (completeIdEx l a).map (·.withPc p) := by
  unfold completeIdEx
  split
  · exact SeqState.apply_withPc _ _ _ _ _ _ _
  · rfl

end Sys2Proof.Machine

namespace Sys2Proof.Machine

/-! ### What completing an instruction leaves alone -/

/-- Everything an instruction can do to the sequential registers and memory. -/
theorem SeqState.apply_ok {op : Op} {rs rt dest : Reg} {imm : Word} {a b : SeqState}
    (h : a.apply op rs rt imm dest = .ok b) : (∃ v, b = a.setReg dest v) ∨ ∃ m, b = { a with dmem := m } := by
  by_cases hlw : op = .LW
  · rw [hlw, SeqState.apply_load] at h
    cases hread : memRead a.dmemMisaligned a.dmem (a.reg rs + imm) with
    | ok v => rw [hread] at h; cases h; exact .inl ⟨v, rfl⟩
    | error r => rw [hread] at h; cases h
  · by_cases hsw : op = .SW
    · rw [hsw, SeqState.apply_store] at h
      cases hwrite : memWrite a.dmemMisaligned a.dmem (a.reg rs + imm) (a.reg rt) with
      | ok m => rw [hwrite] at h; cases h; exact .inr ⟨m, rfl⟩
      | error r => rw [hwrite] at h; cases h
    · rw [SeqState.apply_other hlw hsw] at h
      cases h
      exact .inl ⟨_, rfl⟩

/-- Completing ID_EX leaves `pc`, the program, the parameter and every register but its destination alone. -/
theorem completeIdEx_keeps {l : Latch} {a b : SeqState} (h : completeIdEx l a = .ok b) :
    b.pc = a.pc ∧ b.imem = a.imem ∧ b.dmemMisaligned = a.dmemMisaligned ∧ ∀ r, r ≠ l.dest → b.reg r = a.reg r := by
  unfold completeIdEx at h
  split at h
  · obtain ⟨v, rfl⟩ | ⟨m, rfl⟩ := SeqState.apply_ok h
    · simp only [SeqState.setReg_pc, SeqState.setReg_imem, SeqState.setReg_dmemMisaligned, true_and]
      exact fun r hr => by rw [SeqState.reg_setReg, if_neg fun h => hr h.2]
    · exact ⟨rfl, rfl, rfl, fun _ _ => rfl⟩
  · cases h
    exact ⟨rfl, rfl, rfl, fun _ _ => rfl⟩

/-- A register that EX_MEM does not write is committed in the next cycle as in this one. -/
theorem BackEnd.committed_next {s t : State} (h : BackEnd s t) {r : Reg} (hr : r ≠ s.exMem.dest) :
    committed t r = committed s r := by
  rw [← h.reg, committed, if_neg]
  rintro ⟨hp, -, hdest⟩
  obtain hb | ⟨-, -, -, -, hd⟩ := memoryStage_same h.memory
  · rw [hb] at hp
    cases hp
  · exact hr (hdest.symm.trans hd)

/-- Before a cycle the sequential reading is at the oldest instruction not past Decode, in the same program, with the
committed value in each register that neither ID_EX nor EX_MEM writes. -/
theorem BackEnd.drained_keeps {s t : State} {a : SeqState} (h : BackEnd s t) (ha : Machine.drained s = .ok a) :
    a.pc = sequentialPc s ∧ a.imem = s.imem ∧
    ∀ r, (r ≠ 0 → r ≠ s.idEx.dest ∧ r ≠ s.exMem.dest) → a.reg r = committed s r := by
  rw [h.drained] at ha
  obtain ⟨hpc, himem, -, hreg⟩ := completeIdEx_keeps ha
  refine ⟨hpc.trans (wroteBack_pc _ _), himem.trans ((wroteBack_imem _ _).trans h.imem), fun r hr => ?_⟩
  by_cases hzero : r = 0
  · rw [hzero, committed_zero]
    rfl
  · obtain ⟨hidEx, hexMem⟩ := hr hzero
    rw [hreg r hidEx, wroteBack_reg, h.committed_next hexMem]

/-- After a cycle the sequential reading is that before it, at the new address, with what Decode put into ID_EX
completed. -/
theorem BackEnd.drained_next {s t : State} (h : BackEnd s t) (hs : ExecuteOk s) :
    Machine.drained t = ((Machine.drained s).map (·.withPc (sequentialPc t))).bind (completeIdEx t.idEx) := by
  rw [drained_eq_bind, h.executed_next hs, h.drained, ← completeIdEx_withPc, wroteBack_withPc]

/-! ### One cycle refines one sequential instruction, or none -/

/-- The address of the next instruction after a fetch is where Fetch worked. -/
theorem sequentialPc_of_fetchedFrom {s t : State} {p : Word} (h : fetchedFrom s t p) : sequentialPc t = p := by
  obtain ⟨-, -, hifId⟩ | ⟨-, hpc, hifId⟩ := fetchedFrom_cases h
  · rw [sequentialPc, hifId]
    rfl
  · rw [sequentialPc, hifId, hpc]
    rfl

/-- Executing atomically is applying the instruction and moving `pc` (R110). -/
theorem SeqState.perform_eq_map (d : Decoded) (a : SeqState) :
    a.perform d = (a.apply d.op d.rs d.rt d.imm d.dest).map (·.withPc (a.nextPc d)) := by
  unfold SeqState.perform
  cases a.apply d.op d.rs d.rt d.imm d.dest <;> rfl

/-- A control transfer only moves `pc` (R140, R143). -/
theorem SeqState.perform_of_control {d : Decoded} (hd : Lawful d) (hop : d.op = .BEQ ∨ d.op = .J) (a : SeqState) :
    a.perform d = .ok (a.withPc (a.nextPc d)) := by
  have hdest : d.dest = 0 := by
    by_contra hne
    have hwrites := hd.dest hne
    rcases hop with hop | hop <;> simp [hop] at hwrites
  rw [SeqState.perform_eq_map, SeqState.apply_other, hdest, SeqState.setReg_zero]
  · rfl
  all_goals rcases hop with hop | hop <;> simp [hop]

/-- Completing what passed Decode executes it, at its next address. -/
theorem completeIdEx_passedLatch (s : State) (d : Decoded) (a : SeqState) :
    completeIdEx (passedLatch s d) (a.withPc (a.nextPc d)) = a.perform d := by
  have hp : (passedLatch s d).present = true := rfl
  rw [completeIdEx, if_pos hp, SeqState.apply_withPc, SeqState.perform_eq_map]
  rfl

/-- An instruction without a hazard is executed, if `pc` is past it and a `beq` compares its sequential operands. -/
theorem DecodeResult.refines {d : Decoded} {s t : State} {a : SeqState} (h : DecodeResult d s t)
    (hh : hazard d s.idEx = false) (hd : Lawful d) (hpc : a.pc = s.ifId.pc) (hlink : s.pc = s.ifId.pc + 4)
    (hbeq : d.op = .BEQ → a.reg d.rs = committed s d.rs ∧ a.reg d.rt = committed s d.rt) :
    completeIdEx t.idEx (a.withPc (sequentialPc t)) = a.perform d := by
  cases h with
  | stalled hhaz => rw [hhaz] at hh; cases hh
  | taken _ hop heq hidEx hfetch =>
    obtain ⟨hrs, hrt⟩ := hbeq hop
    have hnext : a.nextPc d = branchTarget s.ifId.pc d.imm := by
      rw [SeqState.nextPc, if_neg (by simp [hop]), if_pos ⟨hop, by rw [hrs, hrt, heq]⟩, hpc]
    rw [hidEx, sequentialPc_of_fetchedFrom hfetch, SeqState.perform_of_control hd (.inl hop), hnext]
    rfl
  | jumped _ hop hidEx hfetch =>
    have hnext : a.nextPc d = d.imm := if_pos hop
    rw [hidEx, sequentialPc_of_fetchedFrom hfetch, SeqState.perform_of_control hd (.inr hop), hnext]
    rfl
  | passed _ hj hb hidEx hfetch =>
    have hnext : a.nextPc d = s.pc := by
      rw [SeqState.nextPc, if_neg hj, if_neg, hpc, hlink]
      rintro ⟨hop, heq⟩
      obtain ⟨hrs, hrt⟩ := hbeq hop
      exact hb ⟨hop, by rw [← hrs, ← hrt, heq]⟩
    rw [hidEx, sequentialPc_of_fetchedFrom hfetch, ← hnext, completeIdEx_passedLatch]

/-- A `beq` that is resolved and not stale compares registers that neither ID_EX nor EX_MEM writes (R110). -/
theorem not_written_of_not_stale {s : State} {d : Decoded} (hd : d = decodeFields s.ifId.instr)
    (hissues : issues s = true) (hstale : staleBranch s = false) (hop : d.op = .BEQ) {r : Reg}
    (hr : r = d.rs ∨ r = d.rt) : r ≠ 0 → r ≠ s.idEx.dest ∧ r ≠ s.exMem.dest := by
  have hcompares : (s.idEx.dest ≠ 0 → ¬ (s.idEx.dest = d.rs ∨ s.idEx.dest = d.rt)) ∧
      (s.exMem.dest ≠ 0 → ¬ (s.exMem.dest = d.rs ∨ s.exMem.dest = d.rt)) := by
    simpa [staleBranch, ← hd, hissues, hop] using hstale
  obtain ⟨hidEx, hexMem⟩ := hcompares
  intro hzero
  constructor
  · rintro rfl
    exact hidEx hzero hr
  · rintro rfl
    exact hexMem hzero hr

/-- An instruction that is issued is present and has no hazard. -/
theorem issues_eq_true_iff (s : State) :
    issues s = true ↔ s.ifId.present = true ∧ hazard (decodeFields s.ifId.instr) s.idEx = false := by
  simp [issues]

/-- Where an instruction is issued the sequential machine is about to execute it. -/
theorem seqStep_of_present {s : State} {a : SeqState} (hinv : PipelineInv s) (hp : s.ifId.present = true)
    (hpc : a.pc = s.ifId.pc) (himem : a.imem = s.imem) :
    a.stopped = false ∧ seqStep a = a.perform (decodeFields s.ifId.instr) := by
  obtain ⟨-, -, ⟨-, hpcOk, -⟩, -, hword, -⟩ := hinv
  have hrunning : a.stopped = false := by
    rw [SeqState.stopped_eq_false_iff, hpc, himem]
    exact of_decide_eq_true (hpcOk hp).2
  exact ⟨hrunning, by rw [seqStep_of_running hrunning, hpc, himem, hword hp]; rfl⟩

/-- Without an instruction issued Decode passes a bubble on, and the next instruction in program order stays. -/
theorem step_of_not_issues {s t : State} (h : step s = .next t) (hissues : issues s = false) :
    t.idEx = bubble ∧ sequentialPc t = sequentialPc s := by
  by_cases hp : s.ifId.present = true
  · have hh : hazard (decodeFields s.ifId.instr) s.idEx = true := by simpa [issues, hp] using hissues
    cases step_result h hp with
    | stalled _ hidEx hifId hpc => exact ⟨hidEx, by rw [sequentialPc, sequentialPc, hifId, hpc]⟩
    | taken hn | jumped hn | passed hn => rw [hh] at hn; cases hn
  · obtain ⟨hidEx, -, hfetch⟩ := emptyDecodePassesBubble s t (by simpa using hp) h
    exact ⟨hidEx, by rw [sequentialPc_of_fetchedFrom hfetch, sequentialPc, if_neg hp]⟩

/-- Settles O50: a cycle completes the latches past Decode alike, so that it differs from the state before by what
Decode did with the instruction in IF_ID. -/
theorem cycleRefinesSequential : Obligations.CycleRefinesSequential := by
  intro s t hinv hlink hstale h
  have hback := step_backEnd h
  have hnext := hback.drained_next (.of_inv hinv hlink)
  cases hissues : issues s with
  | false =>
    obtain ⟨hidEx, hpc⟩ := step_of_not_issues h hissues
    refine ⟨?_, nofun⟩
    rw [if_neg Bool.false_ne_true, hnext, hidEx, hpc]
    cases hdrained : drained s with
    | error r => rfl
    | ok a =>
      obtain ⟨hapc, -⟩ := hback.drained_keeps hdrained
      rw [← hapc]
      rfl
  | true =>
    obtain ⟨hp, hh⟩ := (issues_eq_true_iff s).mp hissues
    have hseqPc : sequentialPc s = s.ifId.pc := if_pos hp
    have hrefines (a) (ha : drained s = .ok a) :
        a.stopped = false ∧ completeIdEx t.idEx (a.withPc (sequentialPc t)) = seqStep a := by
      obtain ⟨hapc, himem, hreg⟩ := hback.drained_keeps ha
      rw [hseqPc] at hapc
      obtain ⟨hrunning, hseq⟩ := seqStep_of_present hinv hp hapc himem
      rw [hseq]
      refine ⟨hrunning, (step_result h hp).refines hh (lawful_decodeFields _) hapc (hlink.1 hp) fun hop => ?_⟩
      exact ⟨hreg _ (not_written_of_not_stale rfl hissues hstale hop (.inl rfl)),
        hreg _ (not_written_of_not_stale rfl hissues hstale hop (.inr rfl))⟩
    refine ⟨?_, fun a _ ha => (hrefines a ha).1⟩
    rw [if_pos rfl, hnext]
    cases hdrained : drained s with
    | error r => rfl
    | ok a => exact (hrefines a hdrained).2

/-! ### A run that reaches quiescence (R110, R186) -/

/-- The sequential machine runs from `a` to its stop at `b`, in `n` steps and no fewer. -/
def StopsAt (n : Nat) (a b : SeqState) : Prop :=
  seqRun n a = .ok b ∧ b.stopped = true ∧ ∀ m c, m < n → seqRun m a = .ok c → c.stopped = false

/-- One instruction executed before is one step more. -/
theorem StopsAt.succ {n : Nat} {a a' b : SeqState} (h : StopsAt n a' b) (hstep : seqStep a = .ok a')
    (hrunning : a.stopped = false) : StopsAt (n + 1) a b := by
  obtain ⟨hrun, hstop, hbefore⟩ := h
  refine ⟨by rw [seqRun, hstep]; exact hrun, hstop, fun m c hm hc => ?_⟩
  cases m with
  | zero => cases hc; exact hrunning
  | succ m =>
    rw [seqRun, hstep] at hc
    exact hbefore m c (by omega) hc

/-- A quiescent state is `pc` at or beyond the end of the program and four bubbles (R186). -/
theorem quiescent_iff (s : State) : quiescent s = true ↔
    s.inProgram s.pc = false ∧ s.ifId = bubble ∧ s.idEx = bubble ∧ s.exMem = bubble ∧ s.memWb = bubble := by
  simp [quiescent, and_assoc]

/-- The sequential reading of a quiescent state is the state itself, stopped. -/
theorem drained_of_quiescent {t : State} (h : quiescent t = true) :
    ∃ b, drained t = .ok b ∧ b.stopped = true ∧ b.x = t.x ∧ b.dmem = t.dmem ∧ b.pc = t.pc := by
  obtain ⟨hpc, hifId, hidEx, hexMem, hmemWb⟩ := (quiescent_iff t).mp h
  refine ⟨⟨t.x, t.dmem, t.pc, t.imem, t.dmemMisaligned⟩, ?_, ?_, rfl, rfl, rfl⟩
  · rw [drained, sequentialPc, hifId, hidEx, hexMem, hmemWb]
    rfl
  · simpa [SeqState.stopped, State.inProgram] using hpc

/-- A run to quiescence without a stale `beq` has a sequential reading at its start, which stops at that of its end. -/
theorem stopsAt_of_steps (k : Nat) : ∀ {s t : State}, PipelineInv s → Linked s → neverStale k s →
    steps k s = .next t → quiescent t = true →
    ∃ a n b, drained s = .ok a ∧ StopsAt n a b ∧ b.x = t.x ∧ b.dmem = t.dmem ∧ b.pc = t.pc := by
  induction k with
  | zero =>
    intro s t _ _ _ hsteps hquiet
    cases hsteps
    obtain ⟨b, hb, hstop, hsame⟩ := drained_of_quiescent hquiet
    exact ⟨b, 0, b, hb, ⟨rfl, hstop, nofun⟩, hsame⟩
  | succ k ih =>
    intro s t hinv hlink hstale hsteps hquiet
    obtain ⟨u, hstep, hrest⟩ := steps_succ_next hsteps
    obtain ⟨hnow, hlater⟩ := hstale
    obtain ⟨a', n, b, ha', hstops, hsame⟩ := ih (stepKeepsPipelineInvariants s u hinv hstep)
      (stepKeepsLatchLinks s u hlink hstep) (hlater u hstep) hrest hquiet
    obtain ⟨hrefines, hrunning⟩ := cycleRefinesSequential s u hinv hlink hnow hstep
    rw [ha'] at hrefines
    cases hissues : issues s with
    | false =>
      rw [hissues, if_neg Bool.false_ne_true] at hrefines
      exact ⟨a', n, b, hrefines.symm, hstops, hsame⟩
    | true =>
      rw [hissues, if_pos rfl] at hrefines
      cases hdrained : drained s with
      | error r => rw [hdrained] at hrefines; cases hrefines
      | ok a =>
        rw [hdrained] at hrefines
        exact ⟨a, n + 1, b, rfl, hstops.succ hrefines.symm (hrunning a hissues hdrained), hsame⟩

/-- Settles O51, by induction over the run: each cycle is a sequential step or none. -/
theorem quiescentAgreesWithSequential : Obligations.QuiescentAgreesWithSequential := by
  intro k s t a hinv hlink hstale ha hsteps hquiet
  obtain ⟨a', n, b, ha', ⟨hrun, hstop, hbefore⟩, hx, hdmem, hpc⟩ :=
    stopsAt_of_steps k hinv hlink hstale hsteps hquiet
  obtain rfl : a' = a := Except.ok.inj (ha'.symm.trans ha)
  exact ⟨n, b, hrun, hstop, hx, hdmem, hpc, hbefore⟩

end Sys2Proof.Machine

namespace Sys2Proof.Machine

/-! ### The ALU's results (R90, R120 to R124) -/

/-- The shift amount is the low five bits of the immediate (R123). -/
theorem alu_sll (a b imm : Word) : alu .SLL a b imm = a <<< (imm.toNat % 32) := by
  rw [alu, BitVec.shiftLeft_eq', BitVec.extractLsb'_toNat, Nat.shiftRight_zero]

theorem toNat_alu_sll (a b imm : Word) :
    (alu .SLL a b imm).toNat = (a.toNat * 2 ^ (imm.toNat % 32)) % 2 ^ 32 := by
  rw [alu_sll, BitVec.toNat_shiftLeft, Nat.shiftLeft_eq]

/-- Settles O16: the arithmetic of words is that of the integers modulo 2^32. -/
theorem aluResultsAsIntegers : Obligations.AluResultsAsIntegers := by
  intro a b imm
  refine ⟨BitVec.toInt_add a b, BitVec.toNat_add a b, BitVec.toInt_sub, ?_, BitVec.toInt_add a imm,
    toNat_alu_sll a b imm⟩
  rw [alu, BitVec.toNat_sub]
  omega

/-- A shift amount that fits its field is below 32 (R57). -/
theorem toNat_lt_of_fitsShamt {imm : Word} (h : fitsShamt imm = true) : imm.toNat < 32 := by
  have hbits := congrArg BitVec.toNat (beq_iff_eq.mp h)
  simp only [BitVec.toNat_setWidth] at hbits
  omega

/-! ### From Decode to Write-back in program order (R110, R194) -/

/-- The cycle that ends a run with a next state. -/
theorem steps_succ_last {k : Nat} : ∀ {s u : State}, steps (k + 1) s = .next u →
    ∃ v, steps k s = .next v ∧ step v = .next u := by
  induction k with
  | zero =>
    intro s u h
    obtain ⟨t, hstep, hrest⟩ := steps_succ_next h
    cases hrest
    exact ⟨s, rfl, hstep⟩
  | succ k ih =>
    intro s u h
    obtain ⟨t, hstep, hrest⟩ := steps_succ_next h
    obtain ⟨v, hv, hlast⟩ := ih hrest
    exact ⟨v, by rw [steps_succ, hstep]; exact hv, hlast⟩

/-- After two more cycles what was in ID_EX has been executed on what was executed before. -/
theorem completeIdEx_of_steps_two {t v : State} {a : SeqState} {p : Word} (ht : ExecuteOk t)
    (ha : executed t p = .ok a) (h : steps 2 t = .next v) : completeIdEx t.idEx a = .ok (wroteBack v p) := by
  obtain ⟨u, hstep, hlast⟩ := steps_succ_next h
  obtain ⟨v', hstep', hv⟩ := steps_succ_next hlast
  cases hv
  have hback := step_backEnd hstep
  obtain rfl : wroteBack u p = a := Except.ok.inj ((hback.executed p).symm.trans ha)
  rw [← hback.executed_next ht, (step_backEnd hstep').executed]

/-- With a defined access and no hazard an instruction that transfers no control passes Decode, and after two more
cycles it has been executed on the sequential reading. -/
theorem exec_passes {s : State} {i : Instr} (hinv : PipelineInv s) (hlink : Linked s) (hacc : accessDefined s)
    (hj : i.fields.op ≠ .J) (hb : i.fields.op ≠ .BEQ) (hrs : ¬ loadAhead s i.fields.rs)
    (hrt : i.fields.op ∈ [Op.ADD, Op.SUB, Op.BEQ, Op.SW] → ¬ loadAhead s i.fields.rt) :
    ∃ t, exec i s = .next t ∧ t.stallAsserted = false ∧ t.idEx = passedLatch s i.fields ∧
      ∀ a v, drained s = .ok a → steps 2 t = .next v →
        a.apply i.fields.op i.fields.rs i.fields.rt i.fields.imm i.fields.dest =
          .ok (wroteBack v (sequentialPc s)) := by
  obtain ⟨t, hexec, hstall, -, hidEx, -⟩ :=
    passThroughCarriesFields.1 s i hacc hj (fun ⟨hop, _⟩ => hb hop) hrs hrt
  refine ⟨t, hexec, hstall, hidEx, fun a v ha hv => ?_⟩
  rw [exec_eq_cycleDecoding] at hexec
  have hback := cycleDecoding_backEnd hexec
  have hexecuted : executed t (sequentialPc s) = .ok a := by
    rw [hback.executed_next (.of_inv hinv hlink), ← hback.drained, ha]
  have ht : ExecuteOk t := .of_decodeResult (lawful_fields i) hback (cycleDecoding_result hexec)
  rw [← completeIdEx_of_steps_two ht hexecuted hv, hidEx]
  rfl

/-- Three cycles after Decode the registers are those of what has been executed. -/
theorem reg_of_steps_three {t u : State} (h : steps 3 t = .next u) :
    ∃ v, steps 2 t = .next v ∧ ∀ p q, u.reg q = (wroteBack v p).reg q := by
  obtain ⟨v, hv, hlast⟩ := steps_succ_last h
  exact ⟨v, hv, fun p q => by rw [(step_backEnd hlast).reg, wroteBack_reg]⟩

/-- The register just written reads as the value, unless it is register 0 (R12). -/
theorem SeqState.reg_setReg_same (a : SeqState) (r : Reg) (v : Word) :
    (a.setReg r v).reg r = if r = 0 then 0 else v := by
  rw [SeqState.reg_setReg]
  by_cases hr : r = 0
  · rw [if_pos hr, if_neg (fun h => h.1 hr), hr]
    rfl
  · rw [if_neg hr, if_pos ⟨hr, rfl⟩]

/-- An arithmetic instruction passes Decode, and its Write-back gives its destination the ALU result of the operands in
program order (R120 to R123). -/
theorem exec_writes {s : State} {i : Instr} (hinv : PipelineInv s) (hlink : Linked s) (hacc : accessDefined s)
    (hop : i.fields.op ∈ [Op.ADD, Op.SUB, Op.ADDI, Op.SLL]) (hrs : ¬ loadAhead s i.fields.rs)
    (hrt : i.fields.op ∈ [Op.ADD, Op.SUB, Op.BEQ, Op.SW] → ¬ loadAhead s i.fields.rt) :
    ∃ t, exec i s = .next t ∧ t.stallAsserted = false ∧ t.idEx.op = i.fields.op ∧ t.idEx.pc = s.ifId.pc ∧
      ∀ a u, drained s = .ok a → steps 3 t = .next u →
        u.reg i.fields.dest = if i.fields.dest = 0 then 0
          else alu i.fields.op (a.reg i.fields.rs) (a.reg i.fields.rt) i.fields.imm := by
  have hne (op : Op) (h : op ∉ [Op.ADD, Op.SUB, Op.ADDI, Op.SLL]) : i.fields.op ≠ op := fun he => h (he ▸ hop)
  obtain ⟨t, hexec, hstall, hidEx, happly⟩ :=
    exec_passes hinv hlink hacc (hne .J (by decide)) (hne .BEQ (by decide)) hrs hrt
  refine ⟨t, hexec, hstall, by rw [hidEx]; rfl, by rw [hidEx]; rfl, fun a u ha hu => ?_⟩
  obtain ⟨v, hv, hreg⟩ := reg_of_steps_three hu
  have hresult := happly a v ha hv
  rw [SeqState.apply_other (hne .LW (by decide)) (hne .SW (by decide))] at hresult
  rw [hreg (sequentialPc s), ← Except.ok.inj hresult, SeqState.reg_setReg_same]

/-- Settles O35: the ALU result of `add` is the sum. -/
theorem addWritesSum : Obligations.AddWritesSum :=
  fun _ rd rs rt hinv hlink hacc hrs hrt =>
    exec_writes (i := .add rd rs rt) hinv hlink hacc (by simp [Instr.fields]) hrs fun _ => hrt

/-- Settles O36: the ALU result of `sub` is the difference. -/
theorem subWritesDifference : Obligations.SubWritesDifference :=
  fun _ rd rs rt hinv hlink hacc hrs hrt =>
    exec_writes (i := .sub rd rs rt) hinv hlink hacc (by simp [Instr.fields]) hrs fun _ => hrt

/-- Settles O37: the ALU result of `addi` is the sum with the immediate; it does not consume `rt`. -/
theorem addiWritesSum : Obligations.AddiWritesSum :=
  fun _ rt rs imm hinv hlink hacc hrs =>
    exec_writes (i := .addi rt rs imm) hinv hlink hacc (by simp [Instr.fields]) hrs
      fun hop => absurd hop (by simp [Instr.fields])

/-- Settles O38: the ALU result of `sll` is the product, as the amount is below 32. -/
theorem sllWritesShift : Obligations.SllWritesShift := by
  intro s rd rs imm hwf hinv hlink hacc hrs
  obtain ⟨t, hexec, hstall, hop, hpc, hwrites⟩ :=
    exec_writes (i := .sll rd rs imm) hinv hlink hacc (by simp [Instr.fields]) hrs
      fun hop => absurd hop (by simp [Instr.fields])
  refine ⟨t, hexec, hstall, hop, hpc, fun a u ha hu => ?_⟩
  have hreg : u.reg rd = if rd = 0 then 0 else alu .SLL (a.reg rs) (a.reg 0) imm := hwrites a u ha hu
  rw [hreg]
  split
  · rfl
  · rw [toNat_alu_sll, Nat.mod_eq_of_lt (toNat_lt_of_fitsShamt hwf)]

/-- The sequential reading has the parameter of the state. -/
theorem drained_dmemMisaligned {s t : State} {a : SeqState} (h : BackEnd s t) (ha : drained s = .ok a) :
    a.dmemMisaligned = s.dmemMisaligned := by
  rw [h.drained] at ha
  obtain ⟨-, -, hmis, -⟩ := completeIdEx_keeps ha
  rw [hmis, wroteBack_dmemMisaligned, h.dmemMisaligned]

/-- Settles O39: executing the `lw` atomically reads memory and writes `rt`. -/
theorem lwWritesLoadedWord : Obligations.LwWritesLoadedWord := by
  intro s rt rs imm hinv hlink hacc hrs
  obtain ⟨t, hexec, hstall, hidEx, happly⟩ :=
    exec_passes (i := .lw rt rs imm) hinv hlink hacc (by simp [Instr.fields])
      (by simp [Instr.fields]) hrs
      fun hop => absurd hop (by simp [Instr.fields])
  refine ⟨t, hexec, hstall, by rw [hidEx]; rfl, by rw [hidEx]; rfl, fun a u ha hu => ?_⟩
  obtain ⟨v, hv, hreg⟩ := reg_of_steps_three hu
  have hload : a.apply .LW rs rt imm rt = _ := happly a v ha hv
  rw [exec_eq_cycleDecoding] at hexec
  rw [SeqState.apply_load, drained_dmemMisaligned (cycleDecoding_backEnd hexec) ha] at hload
  cases hread : memRead s.dmemMisaligned a.dmem (a.reg rs + imm) with
  | error r => rw [hread] at hload; cases hload
  | ok w =>
    rw [hread] at hload
    exact ⟨w, rfl, by rw [hreg (sequentialPc s), ← Except.ok.inj hload, SeqState.reg_setReg_same]⟩

/-- Settles O40: executing the `sw` atomically writes memory. -/
theorem swStoresRegister : Obligations.SwStoresRegister := by
  intro s rt rs imm hinv hlink hacc hrs hrt
  obtain ⟨t, hexec, hstall, hidEx, happly⟩ :=
    exec_passes (i := .sw rt rs imm) hinv hlink hacc (by simp [Instr.fields]) (by simp [Instr.fields]) hrs fun _ => hrt
  refine ⟨t, hexec, hstall, by rw [hidEx]; rfl, by rw [hidEx]; rfl, fun a u ha hu => ?_⟩
  have hstore : a.apply .SW rs rt imm 0 = _ := happly a u ha hu
  rw [exec_eq_cycleDecoding] at hexec
  rw [SeqState.apply_store, drained_dmemMisaligned (cycleDecoding_backEnd hexec) ha] at hstore
  cases hwrite : memWrite s.dmemMisaligned a.dmem (a.reg rs + imm) (a.reg rt) with
  | error r => rw [hwrite] at hstore; cases hstore
  | ok m =>
    rw [hwrite] at hstore
    rw [← wroteBack_dmem u (sequentialPc s), ← Except.ok.inj hstore]

end Sys2Proof.Machine

namespace Sys2Proof.Machine

/-! ### When a cycle has a next state (R36, R80) -/

/-- An access without a defined meaning is to an address that is not a multiple of 4, under `refuse` (R36). -/
theorem not_accessDefined_iff (s : State) : ¬ accessDefined s ↔
    s.exMem.present = true ∧ (s.exMem.op = .LW ∨ s.exMem.op = .SW) ∧ aligned s.exMem.aluResult = false ∧
      s.dmemMisaligned = .refuse := by
  simp [accessDefined]

/-- An address that is not a multiple of 4 resolves to no cell under `refuse` (R36). -/
theorem resolveAddr_refuse {addr : Word} (h : aligned addr = false) :
    resolveAddr .refuse addr = .error (.dmemMisaligned addr) := by
  rw [resolveAddr, h]
  rfl

theorem memRead_refuse (m : Mem) {addr : Word} (h : aligned addr = false) :
    memRead .refuse m addr = .error (.dmemMisaligned addr) := by
  rw [memRead, resolveAddr_refuse h]

theorem memWrite_refuse (m : Mem) {addr : Word} (v : Word) (h : aligned addr = false) :
    memWrite .refuse m addr v = .error (.dmemMisaligned addr) := by
  rw [memWrite, resolveAddr_refuse h]

/-- The Memory stage refuses an access without a defined meaning. -/
theorem memoryStage_of_not_accessDefined {s : State} (h : ¬ accessDefined s) :
    memoryStage s.dmemMisaligned s.exMem s.dmem = .error (.dmemMisaligned s.exMem.aluResult) := by
  obtain ⟨hp, hop, haddr, hmis⟩ := (not_accessDefined_iff s).mp h
  rw [hmis]
  obtain hlw | hsw := hop
  · rw [memoryStage_load _ hp hlw, memRead_refuse _ haddr]
    rfl
  · rw [memoryStage_store _ hp hsw, memWrite_refuse _ _ haddr]
    rfl

/-- Settles O9: a cycle answers exactly when its Memory stage answers. -/
theorem cycleDefinedUnlessMisaligned : Obligations.CycleDefinedUnlessMisaligned := by
  intro s
  constructor
  · intro hacc
    obtain ⟨mw, m, hmem⟩ := memoryStage_of_accessDefined hacc
    exact ⟨_, step_next_iff.mpr ⟨mw, m, hmem, rfl⟩⟩
  · intro hnot
    rw [step_eq_cycle, cycle, memoryStage_of_not_accessDefined hnot]

/-- Settles O8: the three branches of the step. -/
theorem stepRunsDecodedInstruction : Obligations.StepRunsDecodedInstruction := by
  refine fun s => ⟨fun i hp hi => ?_, fun e hp he => ?_, fun hp => ?_⟩
  · rw [step, if_pos hp, hi]
  · rw [step, if_pos hp, he]
  · rw [step, if_neg (by simp [hp])]

/-! ### The cycle counter (R17) -/

/-- A state with another counter. -/
def State.withCount (s : State) (c : BitVec 64) : State := { s with cycleCount := c }

theorem writeBack_withCount (l : Latch) (s : State) (c : BitVec 64) :
    writeBack l (s.withCount c) = (writeBack l s).withCount c := by
  unfold writeBack State.setReg
  split_ifs <;> rfl

theorem beforeDecode_withCount (s : State) (c : BitVec 64) (mw : Latch) (m : Mem) :
    beforeDecode (s.withCount c) mw m = (beforeDecode s mw m).withCount (c + 1) := by
  have htick : (s.withCount c).tick = s.tick.withCount (c + 1) := rfl
  rw [beforeDecode, htick]
  show ((((writeBack s.memWb (s.tick.withCount (c + 1))).setDmem m).setMemWb mw).setExMem _) = _
  rw [writeBack_withCount]
  rfl

theorem decodeStage_withCount (d : Decoded) (l la : Latch) (s : State) (c : BitVec 64) :
    decodeStage d l la (s.withCount c) = (decodeStage d l la s).withCount c := by
  unfold decodeStage
  show (if hazard d la then _ else if d.op = .BEQ ∧ s.reg d.rs = s.reg d.rt then _ else _) = _
  split_ifs <;> rfl

theorem decodePart_withCount (s u : State) (c k : BitVec 64) :
    decodePart (s.withCount c) (u.withCount k) = (decodePart s u).withCount k := by
  by_cases hp : s.ifId.present = true
  · have hp' : (s.withCount c).ifId.present = true := hp
    rw [decodePart, decodePart, if_pos hp, if_pos hp']
    exact decodeStage_withCount _ _ _ _ _
  · have hp' : ¬ (s.withCount c).ifId.present = true := hp
    rw [decodePart, decodePart, if_neg hp, if_neg hp']
    rfl

theorem fetch_withCount (s : State) (c : BitVec 64) : fetch (s.withCount c) = (fetch s).withCount c := by
  unfold fetch
  show (if s.stallAsserted then _ else if s.inProgram s.pc then _ else _) = _
  split_ifs <;> rfl

/-- Settles O10: load and reset clear the counter; every cycle counts; no stage reads the counter. -/
theorem cycleCounterCounts : Obligations.CycleCounterCounts := by
  refine ⟨fun op s t hop h => ?_, fun s t h => (step_backEnd h).cycleCount, fun s t c h => ?_⟩
  · cases op with
    | loadText source =>
      obtain ⟨ws, -, hload⟩ := loadText_next h
      rw [(loadWords_next hload).2]
      rfl
    | loadWords ws =>
      rw [(loadWords_next h).2]
      rfl
    | reset => cases h; rfl
    | step => exact absurd rfl hop
  · obtain ⟨mw, m, hmem, rfl⟩ := step_next_iff.mp h
    refine step_next_iff.mpr ⟨mw, m, hmem, ?_⟩
    show _ = fetch (decodePart (s.withCount c) (beforeDecode (s.withCount c) mw m))
    rw [beforeDecode_withCount, decodePart_withCount, fetch_withCount]
    rfl

/-! ### Stalls and ends (R186, R190) -/

/-- Settles O21: the bubble a stall leaves in ID_EX is no `LW`, so nothing has a hazard with it. -/
theorem stallLastsOneCycle : Obligations.StallLastsOneCycle := by
  intro s t h hstall
  obtain ⟨-, hflag⟩ := stallFlagFollowsHazard
  obtain ⟨hp, hconsumes⟩ := (hflag s t h).mp hstall
  have hh := (hazard_eq_true_iff (decodeFields s.ifId.instr) s.idEx).mpr hconsumes
  cases step_result h hp with
  | taken hn | jumped hn | passed hn => rw [hh] at hn; cases hn
  | stalled _ hidEx hifId =>
    have hnone (d : Decoded) : hazard d t.idEx = false := by
      rw [hidEx]
      exact hazard_eq_false_of_op (by decide)
    refine ⟨hidEx, hnone, hifId, (issues_eq_true_iff t).mpr ⟨by rw [hifId, hp], hnone _⟩, fun u hu => ?_⟩
    rw [Bool.eq_false_iff]
    intro hagain
    obtain ⟨-, hlw, -⟩ := (hflag t u hu).mp hagain
    rw [hidEx] at hlw
    cases hlw

/-- With nothing in IF_ID and nothing to fetch the cycle is Write-back, Memory and Execute alone. -/
theorem step_of_drained_front {s : State} {mw : Latch} {m : Mem} (hifId : s.ifId = bubble)
    (hpc : s.inProgram s.pc = false) (hmem : memoryStage s.dmemMisaligned s.exMem s.dmem = .ok (mw, m)) :
    step s = .next { writeBack s.memWb s with
      dmem := m, cycleCount := s.cycleCount + 1, stallAsserted := false, ifId := bubble, idEx := bubble,
      exMem := execute s.idEx s.exMem s.memWb, memWb := mw } := by
  refine step_next_iff.mpr ⟨mw, m, hmem, ?_⟩
  have hdec : decodePart s = decodeEmpty := by
    rw [decodePart, hifId]
    rfl
  rw [hdec, fetch_outside (by simp) (by simpa [State.inProgram] using hpc)]
  unfold writeBack beforeDecode writeBack State.setReg
  split_ifs <;> rfl

end Sys2Proof.Machine

namespace Sys2Proof.Machine

/-! ### Invariants and frames of a cycle -/

/-- The cycle of an instruction leaves what its stages behind Decode leave. -/
theorem exec_backEnd {i : Instr} {s t : State} (h : exec i s = .next t) : BackEnd s t := by
  rw [exec_eq_cycleDecoding] at h
  exact cycleDecoding_backEnd h

/-- Settles O29: only the Memory stage writes memory. -/
theorem stepKeepsMemoryCanonical : Obligations.StepKeepsMemoryCanonical :=
  fun _ _ hwf h => memoryStage_wf (step_backEnd h).memory hwf

/-- A load of words leaves the reset state with those words. -/
theorem loadWords_eq_reset {ws : List Word} {s t : State} (h : loadWords ws s = .next t) :
    t = { resetOp s with imem := t.imem } := by
  obtain ⟨-, rfl⟩ := loadWords_next h
  rfl

/-- Settles O30: no stage writes the program store or the parameter; a reset keeps them, a load resets the rest. -/
theorem programStoreIsImmutable : Obligations.ProgramStoreIsImmutable := by
  constructor
  · rintro s t i (h | h)
    · exact ⟨(step_backEnd h).imem, (step_backEnd h).dmemMisaligned⟩
    · exact ⟨(exec_backEnd h).imem, (exec_backEnd h).dmemMisaligned⟩
  · intro op s t h hne
    cases op with
    | loadText source =>
      obtain ⟨ws, -, hload⟩ := loadText_next h
      exact ⟨.inl ⟨source, rfl⟩, loadWords_eq_reset hload⟩
    | loadWords ws => exact ⟨.inr ⟨ws, rfl⟩, loadWords_eq_reset h⟩
    | reset => cases h; exact absurd rfl hne
    | step => exact absurd (step_backEnd h).imem hne

/-- A register that Write-back of the cycle does not name is unchanged (R12, R85). -/
theorem committed_of_not_dest {s : State} {r : Reg} (h : ¬ (s.memWb.present = true ∧ s.memWb.dest = r)) :
    committed s r = s.reg r :=
  if_neg fun ⟨hp, _, hdest⟩ => h ⟨hp, hdest⟩

/-- A store leaves every byte outside its cell alone (R34). -/
theorem memWrite_outside {p : DmemMisaligned} {m m' : Mem} {addr v : Word} {a k : Nat}
    (h : memWrite p m addr v = .ok m') (hk : resolveAddr p addr = .ok k) (ha : a < k ∨ k + 4 ≤ a) :
    m'.readByte a = m.readByte a := by
  rw [memWrite, hk] at h
  cases h
  exact Mem.readByte_writeWord_outside m k a v ha

/-- Settles O31: registers change by Write-back only, memory by a `SW` in the Memory stage only. -/
theorem instructionCycleFrame : Obligations.InstructionCycleFrame := by
  intro i s t h
  have hback := exec_backEnd h
  refine ⟨fun r hr => ?_, fun a k hp hsw hk ha => ?_, fun hnostore a => ?_, hback.imem, hback.cycleCount⟩
  · rw [hback.reg, committed_of_not_dest hr]
  · obtain ⟨hn, -⟩ | ⟨-, hop, -⟩ | ⟨-, -, hstore, -⟩ | ⟨-, -, hop, -⟩ := memoryStage_ok hback.memory
    · rw [hp] at hn; cases hn
    · rw [hsw] at hop; cases hop
    · exact memWrite_outside hstore hk ha
    · exact absurd hsw hop
  · obtain ⟨-, -, hm⟩ | ⟨-, -, hm, -⟩ | ⟨hp, hop, -⟩ | ⟨-, -, -, -, hm⟩ := memoryStage_ok hback.memory
    · rw [hm]
    · rw [hm]
    · exact absurd ⟨hp, hop⟩ hnostore
    · rw [hm]

/-- Settles O32: what the stages behind Decode leave is a function of the state before the cycle. -/
theorem decodeTouchesFrontEndOnly : Obligations.DecodeTouchesFrontEndOnly := by
  intro i j s t u hi hj
  have ht := exec_backEnd hi
  have hu := exec_backEnd hj
  obtain ⟨hmemWb, hdmem⟩ := Prod.mk.inj (Except.ok.inj (ht.memory.symm.trans hu.memory))
  exact ⟨ht.x.trans hu.x.symm, hdmem, ht.exMem.trans hu.exMem.symm, hmemWb,
    ht.cycleCount.trans hu.cycleCount.symm, ht.imem.trans hu.imem.symm,
    ht.dmemMisaligned.trans hu.dmemMisaligned.symm⟩

/-! ### What a `beq` and an unrecognized word do -/

/-- Settles O42: the `beq` passes Decode, and its arm of the ALU gives 0. -/
theorem beqNotTakenPasses : Obligations.BeqNotTakenPasses := by
  intro s rs rt imm hacc hrs hrt hne
  obtain ⟨t, hexec, hstall, hfetch, hidEx, -⟩ := passThroughCarriesFields.1 s (.beq rs rt imm) hacc
    (by simp [Instr.fields]) (fun ⟨_, heq⟩ => hne heq) hrs (fun _ => hrt)
  refine ⟨t, hexec, hstall, hfetch, hidEx, fun u hu => ?_⟩
  rw [(step_backEnd hu).exMem, hidEx, execute_present _ _ rfl]
  exact ⟨rfl, rfl⟩

/-- Two fetches at the same address of the same program leave the same. -/
theorem fetchedFrom_unique {s s' t u : State} {p : Word} (ht : fetchedFrom s t p) (hu : fetchedFrom s' u p)
    (himem : s.imem = s'.imem) : t.pc = u.pc ∧ t.ifId = u.ifId := by
  rw [fetchedFrom, ← himem] at hu
  obtain ⟨hin, hpc, hifId⟩ | ⟨hout, hpc, hifId⟩ := fetchedFrom_cases ht
  · obtain ⟨hpc', hifId'⟩ := hu.1 (of_decide_eq_true hin)
    exact ⟨hpc.trans hpc'.symm, hifId.trans hifId'.symm⟩
  · obtain ⟨hpc', hifId'⟩ := hu.2 (Nat.le_of_not_lt (of_decide_eq_false hout))
    exact ⟨hpc.trans hpc'.symm, hifId.trans hifId'.symm⟩

/-- Without a `LW` in ID_EX a `beq` is not stalled: Fetch works at its target or at `pc`, by the committed registers. -/
theorem execBeq_fetchedFrom {s t : State} {rs rt : Reg} {imm : Word} (hlw : s.idEx.op ≠ .LW)
    (h : exec (.beq rs rt imm) s = .next t) :
    fetchedFrom s t (if committed s rs = committed s rt then branchTarget s.ifId.pc imm else s.pc) := by
  rw [exec_eq_cycleDecoding] at h
  have hh : hazard (Instr.beq rs rt imm).fields s.idEx = false := hazard_eq_false_of_op hlw
  cases cycleDecoding_result h with
  | stalled hhaz => rw [hh] at hhaz; cases hhaz
  | taken _ _ heq _ hfetch =>
    have heq : committed s rs = committed s rt := heq
    rwa [if_pos heq]
  | jumped _ hop => cases hop
  | passed _ _ hb _ hfetch =>
    have hne : ¬ committed s rs = committed s rt := fun heq => hb ⟨rfl, heq⟩
    rwa [if_neg hne]

/-- Settles O49: the committed registers see MEM_WB only. -/
theorem branchIgnoresInFlightResults : Obligations.BranchIgnoresInFlightResults :=
  fun s _ _ _ _ _ l m hlw hlw' ht hu =>
    fetchedFrom_unique (execBeq_fetchedFrom hlw ht)
      (execBeq_fetchedFrom (s := { s with idEx := l, exMem := m }) hlw' hu) rfl

/-- An unrecognized word in a latch past Decode: a present `OTHER` with every other field 0 (R150). -/
def otherLatch (pc : Word) : Latch := { bubble with present := true, pc := pc, op := .OTHER }

/-- An unrecognized word passes Decode: its only register, 0, no load ahead writes. -/
theorem execOther_passes {s : State} (hacc : accessDefined s) :
    ∃ t, execOther s = .next t ∧ t.stallAsserted = false ∧ fetchedFrom s t s.pc ∧ t.idEx = otherLatch s.ifId.pc := by
  have hzero : ¬ loadAhead s 0 := fun ⟨_, hne, heq⟩ => hne heq
  obtain ⟨t, hnext, hstall, hfetch, hidEx⟩ := cycleDecoding_passes hacc
    (hazard_eq_false_of_not_loadAhead (d := otherFields) (fun _ => hzero) (fun _ => hzero))
    (by simp [otherFields]) (by simp [otherFields])
  refine ⟨t, hnext, hstall, hfetch, ?_⟩
  rw [hidEx]
  simp only [otherFields, committed_zero]
  rfl

/-- Nothing is forwarded to register 0 (R92). -/
theorem forward_zero (v : Word) (f1 f2 : Latch) : forward 0 v f1 f2 = v := by
  rw [forward, if_neg (fun ⟨hne, heq⟩ => hne heq), if_neg (fun ⟨hne, heq⟩ => hne heq)]

/-- Execute leaves an unrecognized word as it is. -/
theorem execute_otherLatch (pc : Word) (f1 f2 : Latch) : execute (otherLatch pc) f1 f2 = otherLatch pc := by
  have hrt : forward (otherLatch pc).rt (otherLatch pc).rtValue f1 f2 = 0 := forward_zero 0 f1 f2
  rw [execute_present _ _ rfl, hrt]
  rfl

/-- A run of one cycle is a step. -/
theorem step_of_steps_one {s t : State} (h : steps 1 s = .next t) : step s = .next t := by
  obtain ⟨u, hstep, hrest⟩ := steps_succ_next h
  cases hrest
  exact hstep

/-- Settles O45: the latch of an unrecognized word stays as it is from Decode to Write-back, and has no destination. -/
theorem unrecognizedWordIsNoOp : Obligations.UnrecognizedWordIsNoOp := by
  intro s hacc
  obtain ⟨t, hnext, hstall, hfetch, hidEx⟩ := execOther_passes hacc
  have hexecuted (u : State) (hu : step t = .next u) : u.exMem = otherLatch s.ifId.pc := by
    rw [(step_backEnd hu).exMem, hidEx, execute_otherLatch]
  have hpassed (u v : State) (hu : step t = .next u) (hv : step u = .next v) :
      v.dmem = u.dmem ∧ v.memWb = otherLatch s.ifId.pc := by
    have hmem := (step_backEnd hv).memory
    rw [hexecuted u hu, memoryStage_other _ rfl (by simp [otherLatch]) (by simp [otherLatch])] at hmem
    obtain ⟨hmemWb, hdmem⟩ := Prod.mk.inj (Except.ok.inj hmem)
    exact ⟨hdmem.symm, hmemWb.symm⟩
  refine ⟨t, hnext, hstall, hfetch, hidEx, fun u hu => ?_, fun u v hu hv => ?_, fun u v hu hv r => ?_⟩
  · exact hexecuted u (step_of_steps_one hu)
  · exact hpassed u v (step_of_steps_one hu) hv
  · obtain ⟨w, hw, hu⟩ := steps_succ_next hu
    obtain ⟨-, hmemWb⟩ := hpassed w u hw (step_of_steps_one hu)
    rw [(step_backEnd hv).reg, committed, hmemWb, if_neg]
    exact fun ⟨_, hne, _⟩ => hne rfl

/-! ### The status (R109) -/

/-- What Decode does, by the committed registers. -/
theorem decodeOutcome_eq (s : State) : decodeOutcome s =
    if !s.ifId.present then .empty
    else if hazard (decodeFields s.ifId.instr) s.idEx then .stalled
    else if (decodeFields s.ifId.instr).op = .BEQ ∧
      committed s (decodeFields s.ifId.instr).rs = committed s (decodeFields s.ifId.instr).rt then .tookBranch
    else if (decodeFields s.ifId.instr).op = .J then .jumped
    else .passed := by
  simp only [decodeOutcome, writeBack_reg_eq_committed]

/-- Decode redirects `pc` for an issued `j` or taken `beq` (R100, R101). -/
theorem redirect_isSome_iff (s : State) : (redirect s).isSome = true ↔ issues s = true ∧
    (((decodeFields s.ifId.instr).op = .BEQ ∧
      committed s (decodeFields s.ifId.instr).rs = committed s (decodeFields s.ifId.instr).rt) ∨
     (decodeFields s.ifId.instr).op = .J) := by
  cases hissues : issues s with
  | false => simp [redirect, hissues]
  | true =>
    by_cases hj : (decodeFields s.ifId.instr).op = .J
    · simp [redirect, hissues, hj]
    · simp [redirect, hissues, hj]

/-- Settles O52: the outcome branches as Decode does. -/
theorem statusReportsStall : Obligations.StatusReportsStall := by
  intro s t h
  obtain ⟨mw, m, -, rfl⟩ := step_next_iff.mp h
  have houtcome (o : State) : (status s o).outcome = _ := decodeOutcome_eq s
  rw [fetch_stallAsserted, decodePart_stallAsserted (beforeDecode_stallAsserted s mw m), redirect_isSome_iff,
    issues_eq_true_iff, houtcome]
  refine ⟨?_, ?_, ?_, rfl, rfl⟩ <;> split_ifs with hp hh hb hj <;> simp_all

end Sys2Proof.Machine

namespace Sys2Proof.Machine

/-! ### Reset, load and the end of a run (R26, R180, R186) -/

/-- A state with four bubbles meets the invariants, if its `pc` is aligned and cell 0 of the registers is 0. -/
theorem inv_of_bubbles {t : State} (hzero : t.x[0] = 0) (hpc : aligned t.pc = true) (hifId : t.ifId = bubble)
    (hidEx : t.idEx = bubble) (hexMem : t.exMem = bubble) (hmemWb : t.memWb = bubble) :
    PipelineInv t ∧ Linked t := by
  unfold PipelineInv bubblesOk pcsOk opsOk fetchedWordOk loadUseOk Linked
  rw [hifId, hidEx, hexMem, hmemWb]
  exact ⟨⟨hzero, ⟨fun _ => rfl, fun _ => rfl, fun _ => rfl, fun _ => rfl⟩, ⟨hpc, nofun, nofun, nofun, nofun⟩,
    ⟨nofun, nofun, nofun⟩, nofun, nofun⟩, nofun, nofun⟩

/-- Settles O27: after reset and load there are four bubbles, at address 0, with empty memory. -/
theorem resetAndLoadMeetInvariants : Obligations.ResetAndLoadMeetInvariants := by
  constructor
  · obtain ⟨hinv, hlink⟩ := inv_of_bubbles (t := State.reset) rfl rfl rfl rfl rfl rfl
    exact ⟨hinv, hlink, rfl, by decide⟩
  · intro s t ws h
    obtain ⟨hfits, rfl⟩ := loadWords_next h
    obtain ⟨hinv, hlink⟩ := inv_of_bubbles (t := { resetOp s with imem := ws }) rfl rfl rfl rfl rfl rfl
    exact ⟨hinv, hlink, rfl, hfits⟩

/-- Settles O23: all three are a reset of some state, but for the program. -/
theorem resetValues : Obligations.ResetValues := by
  intro s t ws
  refine ⟨?_, rfl, fun h => by rw [(loadWords_next h).2]⟩
  rintro (rfl | rfl | h)
  · exact ⟨resetOp_reg s, fun _ => rfl, rfl, rfl, rfl, rfl, rfl, rfl, rfl⟩
  · exact ⟨resetOp_reg State.reset, fun _ => rfl, rfl, rfl, rfl, rfl, rfl, rfl, rfl⟩
  · obtain ⟨-, rfl⟩ := loadWords_next h
    exact ⟨resetOp_reg s, fun _ => rfl, rfl, rfl, rfl, rfl, rfl, rfl, rfl⟩

/-- Settles O25: the state after the load has empty latches, so that its step only fetches. -/
theorem firstStepFetchesWordZero : Obligations.FirstStepFetchesWordZero := by
  intro s w ws hlen
  have hload : loadWords (w :: ws) s = .next { resetOp s with imem := w :: ws } := if_pos hlen
  obtain ⟨t, hstep, -⟩ := memoryStagePassesBubble { resetOp s with imem := w :: ws } rfl
  obtain ⟨-, -, hfetch, -⟩ := emptyDecodePassesBubble _ t rfl hstep
  obtain ⟨hpc, hifId⟩ := hfetch (Nat.mul_pos (by decide) (Nat.succ_pos ws.length))
  exact ⟨_, t, hload, hstep, hpc, by rw [hifId]; simp [resetOp, State.reset]⟩

/-- Settles O22: with four bubbles and nothing to fetch no stage does anything. -/
theorem quiescentStateIsFinal : Obligations.QuiescentStateIsFinal := by
  intro s h
  refine ⟨?_, h⟩
  obtain ⟨hpc, hifId, hidEx, hexMem, hmemWb⟩ := (quiescent_iff s).mp h
  have hmem : memoryStage s.dmemMisaligned s.exMem s.dmem = .ok (bubble, s.dmem) := by
    rw [hexMem]
    rfl
  rw [step_of_drained_front hifId hpc hmem, hidEx, hexMem, hmemWb]
  cases s
  cases hifId
  cases hidEx
  cases hexMem
  cases hmemWb
  rfl

/-! ### A lone instruction (R194) -/

/-- The state `n` cycles after `s`, with the latches past Decode as given and nothing in IF_ID. -/
def inFlight (s : State) (n : BitVec 64) (idEx exMem memWb : Latch) : State :=
  { s with
    cycleCount := s.cycleCount + n, stallAsserted := false, ifId := bubble, idEx := idEx, exMem := exMem,
    memWb := memWb }

theorem writeBack_inFlight (l : Latch) (s : State) (n : BitVec 64) (l1 l2 l3 : Latch) :
    writeBack l (inFlight s n l1 l2 l3) = inFlight (writeBack l s) n l1 l2 l3 := by
  unfold writeBack State.setReg
  split_ifs <;> rfl

/-- One more cycle in flight. -/
theorem step_inFlight {s : State} {n : BitVec 64} {l1 l2 l3 mw : Latch} {m : Mem} (hpc : s.inProgram s.pc = false)
    (hmem : memoryStage s.dmemMisaligned l2 s.dmem = .ok (mw, m)) :
    step (inFlight s n l1 l2 l3) =
      .next (inFlight ((writeBack l3 s).setDmem m) (n + 1) bubble (execute l1 l2 l3) mw) := by
  have hwrite : writeBack (inFlight s n l1 l2 l3).memWb _ = _ := writeBack_inFlight l3 s n l1 l2 l3
  rw [step_of_drained_front (s := inFlight s n l1 l2 l3) rfl hpc hmem, hwrite]
  simp [inFlight, State.setDmem, BitVec.add_assoc]

/-- With nothing in flight nothing is awaited: the committed registers are the registers. -/
theorem committed_of_bubble {s : State} (h : s.memWb = bubble) (r : Reg) : committed s r = s.reg r := by
  rw [committed, h]
  exact if_neg fun ⟨hp, _⟩ => Bool.false_ne_true hp

/-- Two states with the same fields are the same. -/
theorem State.eq_of_fields {s t : State} (hx : s.x = t.x) (hdmem : s.dmem = t.dmem) (hpc : s.pc = t.pc)
    (hcount : s.cycleCount = t.cycleCount) (hstall : s.stallAsserted = t.stallAsserted) (hifId : s.ifId = t.ifId)
    (hidEx : s.idEx = t.idEx) (hexMem : s.exMem = t.exMem) (hmemWb : s.memWb = t.memWb) (himem : s.imem = t.imem)
    (hmis : s.dmemMisaligned = t.dmemMisaligned) : s = t := by
  cases s
  cases t
  simp_all

/-- A lone instruction that transfers no control passes Decode. -/
theorem exec_of_lone {s : State} {i : Instr} (h : loneInDecode s) (hj : i.fields.op ≠ .J) (hb : i.fields.op ≠ .BEQ) :
    exec i s = .next (inFlight s 1 (passedLatch s i.fields) bubble bubble) := by
  obtain ⟨hidEx, hexMem, hmemWb, hpc⟩ := h
  have hahead (r : Reg) : ¬ loadAhead s r := fun ⟨hop, _⟩ => by rw [hidEx] at hop; cases hop
  obtain ⟨t, hexec, hstall, hfetch, hpassed, -⟩ := passThroughCarriesFields.1 s i
    (accessDefined_of_absent (by rw [hexMem]; rfl)) hj (fun ⟨hop, _⟩ => hb hop) (hahead _) (fun _ => hahead _)
  have hback := exec_backEnd hexec
  have hmem := hback.memory
  rw [hexMem] at hmem
  obtain ⟨hbubble, hdmem⟩ := Prod.mk.inj (Except.ok.inj hmem)
  obtain ⟨hpcKept, hifId⟩ := hfetch.2 hpc
  rw [hexec]
  refine congrArg _ (State.eq_of_fields ?x hdmem.symm hpcKept hback.cycleCount hstall hifId hpassed ?exMem hbubble.symm
    hback.imem hback.dmemMisaligned)
  case x => rw [hback.x, hmemWb]; rfl
  case exMem => rw [hback.exMem, hidEx]; rfl

/-- The latch of a lone instruction after Execute: nothing is forwarded to it. -/
def loneExecuted (s : State) (d : Decoded) : Latch :=
  { passedLatch s d with aluResult := alu d.op (s.reg d.rs) (s.reg d.rt) d.imm, storeValue := s.reg d.rt }

theorem execute_lone {s : State} (d : Decoded) (h : s.memWb = bubble) :
    execute (passedLatch s d) bubble bubble = loneExecuted s d := by
  rw [execute_present _ _ rfl]
  show { passedLatch s d with
    aluResult := alu d.op (committed s d.rs) (committed s d.rt) d.imm, storeValue := committed s d.rt } = _
  rw [committed_of_bubble h, committed_of_bubble h]
  rfl

/-- Execute of a lone instruction. -/
theorem step_lone {s : State} {d : Decoded} (h : loneInDecode s) :
    step (inFlight s 1 (passedLatch s d) bubble bubble) = .next (inFlight s 2 bubble (loneExecuted s d) bubble) := by
  obtain ⟨-, -, hmemWb, hpc⟩ := h
  rw [step_inFlight (by simpa [State.inProgram] using hpc) rfl, execute_lone d hmemWb]
  rfl

/-- A lone instruction leaves what its Memory stage and its Write-back make of the state. -/
theorem steps_three_lone {s : State} {d : Decoded} {mw : Latch} {m : Mem} (h : loneInDecode s)
    (hmem : memoryStage s.dmemMisaligned (loneExecuted s d) s.dmem = .ok (mw, m)) :
    steps 3 (inFlight s 1 (passedLatch s d) bubble bubble) = .next (afterLone (writeBack mw (s.setDmem m))) := by
  have hexecute := step_lone (d := d) h
  obtain ⟨hidEx, hexMem, hmemWb, hge⟩ := h
  have hpc : s.inProgram s.pc = false := by simpa [State.inProgram] using hge
  have hmemory : step (inFlight s 2 bubble (loneExecuted s d) bubble) =
    .next (inFlight (s.setDmem m) 3 bubble bubble mw) := step_inFlight hpc hmem
  have hwrite : step (inFlight (s.setDmem m) 3 bubble bubble mw) =
    .next (inFlight ((writeBack mw (s.setDmem m)).setDmem m) 4 bubble bubble bubble) :=
    step_inFlight hpc rfl
  have hend : inFlight ((writeBack mw (s.setDmem m)).setDmem m) 4 bubble bubble bubble =
      afterLone (writeBack mw (s.setDmem m)) := by
    apply State.eq_of_fields <;> simp [inFlight, afterLone, hidEx, hexMem, hmemWb]
  simp only [steps_succ, hexecute, hmemory, hwrite, hend]
  rfl

/-- The Memory stage of a lone instruction refuses what its access refuses. -/
theorem steps_two_lone_refused {s : State} {d : Decoded} {r : Refusal} (h : loneInDecode s)
    (hmem : memoryStage s.dmemMisaligned (loneExecuted s d) s.dmem = .error r) :
    steps 2 (inFlight s 1 (passedLatch s d) bubble bubble) = .refused r := by
  have hmemory : memoryStage (inFlight s 2 bubble (loneExecuted s d) bubble).dmemMisaligned
      (inFlight s 2 bubble (loneExecuted s d) bubble).exMem (inFlight s 2 bubble (loneExecuted s d) bubble).dmem =
      .error r := hmem
  have hrefused : step (inFlight s 2 bubble (loneExecuted s d) bubble) = .refused r := by
    rw [step_eq_cycle, cycle, hmemory]
  rw [steps_succ, step_lone h]
  show steps 1 _ = _
  rw [steps_succ, hrefused]

/-- The Write-back of a lone instruction writes its destination. -/
theorem writeBack_loneExecuted (s u : State) (d : Decoded) : writeBack (loneExecuted s d) u =
    u.setReg d.dest (result (loneExecuted s d)) := if_pos rfl

/-- Settles O46: an arithmetic instruction makes no access, and its result is that of the ALU. -/
theorem loneArithmeticEffect : Obligations.LoneArithmeticEffect := by
  intro s rd rs rt imm h
  have heffect (i : Instr) (hop : i.fields.op ∈ [Op.ADD, Op.SUB, Op.ADDI, Op.SLL]) :
      ∃ t, exec i s = .next t ∧ steps 3 t = .next (afterLone (s.setReg i.fields.dest
        (alu i.fields.op (s.reg i.fields.rs) (s.reg i.fields.rt) i.fields.imm))) := by
    have hne (op : Op) (h : op ∉ [Op.ADD, Op.SUB, Op.ADDI, Op.SLL]) : i.fields.op ≠ op := fun he => h (he ▸ hop)
    refine ⟨_, exec_of_lone h (hne .J (by decide)) (hne .BEQ (by decide)), ?_⟩
    have hmem := memoryStage_other (p := s.dmemMisaligned) (l := loneExecuted s i.fields) s.dmem rfl
      (hne .LW (by decide)) (hne .SW (by decide))
    have hresult : result (loneExecuted s i.fields) = _ := if_neg (hne .LW (by decide))
    rw [steps_three_lone h hmem, writeBack_loneExecuted, hresult]
    rfl
  refine ⟨heffect (.add rd rs rt) (by simp [Instr.fields]), heffect (.sub rd rs rt) (by simp [Instr.fields]),
    heffect (.addi rt rs imm) (by simp [Instr.fields]), ?_⟩
  rw [← alu_sll _ (s.reg 0)]
  exact heffect (.sll rd rs imm) (by simp [Instr.fields])

/-- A load and a store at one address are refused alike (R36). -/
theorem memWrite_error {p : DmemMisaligned} {m : Mem} {addr : Word} {r : Refusal} (h : memRead p m addr = .error r)
    (v : Word) : memWrite p m addr v = .error r := by
  unfold memRead at h
  unfold memWrite
  cases hk : resolveAddr p addr with
  | ok k => rw [hk] at h; cases h
  | error e => rw [hk] at h; cases h; rfl

/-- Settles O47: a load writes back the word read, a store leaves the memory written and has no destination. -/
theorem loneAccessEffect : Obligations.LoneAccessEffect := by
  intro s rt rs imm h
  have hlw := exec_of_lone (i := .lw rt rs imm) h (by simp [Instr.fields]) (by simp [Instr.fields])
  have hsw := exec_of_lone (i := .sw rt rs imm) h (by simp [Instr.fields]) (by simp [Instr.fields])
  have hload := memoryStage_load (p := s.dmemMisaligned) (l := loneExecuted s (Instr.lw rt rs imm).fields)
    s.dmem rfl rfl
  have hstore := memoryStage_store (p := s.dmemMisaligned) (l := loneExecuted s (Instr.sw rt rs imm).fields)
    s.dmem rfl rfl
  refine ⟨fun v hv => ⟨_, hlw, ?_⟩, fun m hm => ⟨_, hsw, ?_⟩, fun r hr => ⟨⟨_, hlw, ?_⟩, ⟨_, hsw, ?_⟩⟩⟩
  · rw [steps_three_lone h (hload.trans (congrArg (Except.map _) hv))]
    rfl
  · rw [steps_three_lone h (hstore.trans (congrArg (Except.map _) hm))]
    rfl
  · exact steps_two_lone_refused h (hload.trans (congrArg (Except.map _) hr))
  · exact steps_two_lone_refused h (hstore.trans (congrArg (Except.map _) (memWrite_error hr _)))

end Sys2Proof.Machine

namespace Sys2Proof.Machine

/-! ### Loads and stores (R33, R34, R36) -/

/-- A load of a resolved address reads its cell. -/
theorem memRead_of_resolve {p : DmemMisaligned} {addr : Word} {k : Nat} (m : Mem) (h : resolveAddr p addr = .ok k) :
    memRead p m addr = .ok (m.readWord k) := by
  rw [memRead, h]

/-- A store at a resolved address writes its cell. -/
theorem memWrite_of_resolve {p : DmemMisaligned} {addr : Word} {k : Nat} (m : Mem) (v : Word)
    (h : resolveAddr p addr = .ok k) : memWrite p m addr v = .ok (m.writeWord k v) := by
  rw [memWrite, h]

/-- Where each access reaches the cell of its own address, a store is read back, and other addresses keep theirs. -/
theorem store_load {p : DmemMisaligned} {m : Mem} {a b : Word} (v : Word) (hwf : m.wf = true)
    (ha : resolveAddr p a = .ok (cellKey a)) (hb : resolveAddr p b = .ok (cellKey b)) :
    ∃ m', memWrite p m a v = .ok m' ∧ m'.wf = true ∧ memRead p m' a = .ok v ∧
      (b ≠ a → memRead p m' b = memRead p m b) := by
  refine ⟨_, memWrite_of_resolve m v ha, Mem.wf_writeWord _ _ hwf, ?_, fun hne => ?_⟩
  · rw [memRead_of_resolve _ ha, Mem.readWord_writeWord_same _ _ hwf]
  · rw [memRead_of_resolve _ hb, memRead_of_resolve _ hb, Mem.readWord_writeWord_other _ _ _ _ (cellKey_disjoint hne)]

/-- An aligned address resolves to its own cell (R36). -/
theorem resolveAddr_eq_cellKey {a : Word} (p : DmemMisaligned) (h : aligned a = true) :
    resolveAddr p a = .ok (cellKey a) := if_pos h

/-- Settles O33: an aligned address resolves to its own cell, and cells share no byte. -/
theorem loadReadsLastStore : Obligations.LoadReadsLastStore := by
  intro p m a b v hwf ha hb
  refine ⟨?_, store_load v hwf (resolveAddr_eq_cellKey p ha) (resolveAddr_eq_cellKey p hb)⟩
  rw [memRead_of_resolve _ (resolveAddr_eq_cellKey p ha)]
  simp [Mem.readWord, Mem.readByte]

/-- Every address resolves to its own cell under `exact_key` (R36). -/
theorem resolveAddr_exactKey (a : Word) : resolveAddr .exactKey a = .ok (cellKey a) := by
  unfold resolveAddr
  split_ifs <;> rfl

/-- Truncating clears the two low bits (R36). -/
theorem toNat_truncateAddr (a : Word) : (truncateAddr a).toNat = 4 * (a.toNat / 4) := by
  have happend : (truncateAddr a).toNat = (a.extractLsb' 2 30).toNat <<< 2 ||| (0 : BitVec 2).toNat :=
    BitVec.toNat_append _ _
  simp only [happend, BitVec.extractLsb'_toNat, BitVec.reduceToNat, Nat.or_zero, Nat.shiftRight_eq_div_pow,
    Nat.shiftLeft_eq]
  omega

theorem truncateAddr_eq_sub (a : Word) : truncateAddr a = a - BitVec.ofNat 32 (a.toNat % 4) := by
  apply BitVec.eq_of_toNat_eq
  rw [toNat_truncateAddr, BitVec.toNat_sub, BitVec.toNat_ofNat]
  omega

/-- Under `truncate` every address resolves as the truncated one, which is aligned (R36). -/
theorem resolveAddr_truncate {a : Word} (h : aligned a = false) :
    resolveAddr .truncate a = resolveAddr .truncate (truncateAddr a) := by
  have haligned : aligned (truncateAddr a) = true := by simp [aligned, toNat_truncateAddr]
  rw [resolveAddr_eq_cellKey _ haligned, resolveAddr, h]
  rfl

/-- Settles O34: refused, resolved to a cell of its own, or resolved as the truncated address. -/
theorem misalignedAccessFollowsParameter : Obligations.MisalignedAccessFollowsParameter := by
  intro m a b v hwf ha
  have hmis : aligned a = false := by simpa [aligned] using ha
  obtain ⟨m', hwrite, -, hread, hother⟩ := store_load v hwf (resolveAddr_exactKey a) (resolveAddr_exactKey b)
  rw [← truncateAddr_eq_sub]
  refine ⟨memRead_refuse m hmis, memWrite_refuse m v hmis, ⟨m', hwrite, hread, hother⟩, ?_, ?_⟩
  · rw [memRead, resolveAddr_truncate hmis, memRead]
  · rw [memWrite, resolveAddr_truncate hmis, memWrite]

end Sys2Proof.Machine

namespace Sys2Proof.Machine

/-! ### Pass one (R65, R66) -/

/-- The label table after a line's label is bound at `addr` (R66). -/
inductive Binds (l : Line) (addr : Nat) (ls : Labels) : Labels → Prop
  | unlabelled (h : l.label = none) : Binds l addr ls ls
  | labelled (t : Text) (h : l.label = some t) (hnew : findLabel ls t = none) : Binds l addr ls ((t, addr) :: ls)

/-- Everything pass one does with a line: bind its label, and keep its instruction, 4 bytes long. -/
theorem passOne_cons {l : Line} {rest : List Line} {addr : Nat} {ls final : Labels} {bodies : List Text}
    (h : passOne (l :: rest) addr ls = .ok (final, bodies)) : ∃ ls', Binds l addr ls ls' ∧
      ((l.body = none ∧ passOne rest addr ls' = .ok (final, bodies)) ∨
       ∃ b bs, l.body = some b ∧ bodies = b :: bs ∧ passOne rest (addr + 4) ls' = .ok (final, bs)) := by
  rw [passOne] at h
  split at h
  case h_1 => cases h
  case h_2 ls' hbound =>
    refine ⟨ls', ?_, ?_⟩
    · cases hlabel : l.label with
      | none => rw [hlabel] at hbound; cases hbound; exact .unlabelled hlabel
      | some t =>
        rw [hlabel] at hbound
        simp only at hbound
        split at hbound
        · cases hbound
        · rename_i hnew
          cases hbound
          exact .labelled t hlabel (by simpa using hnew)
    · split at h
      · rename_i hbody
        exact .inl ⟨hbody, h⟩
      · rename_i b hbody
        split at h
        · cases h
        · rename_i final' bs hrest
          cases h
          exact .inr ⟨b, bs, hbody, rfl, hrest⟩

/-- The number of lines that hold an instruction. -/
def instrLines (lines : List Line) : Nat := (lines.filter (·.body.isSome)).length

theorem instrLines_cons_none {l : Line} (rest : List Line) (h : l.body = none) :
    instrLines (l :: rest) = instrLines rest := by
  simp [instrLines, h]

theorem instrLines_cons_some {l : Line} {b : Text} (rest : List Line) (h : l.body = some b) :
    instrLines (l :: rest) = instrLines rest + 1 := by
  simp [instrLines, h]

/-- Pass one keeps one instruction text per line that holds one. -/
theorem passOne_length {lines : List Line} : ∀ {addr : Nat} {ls final : Labels} {bodies : List Text},
    passOne lines addr ls = .ok (final, bodies) → bodies.length = instrLines lines := by
  induction lines with
  | nil =>
    intro addr ls final bodies h
    cases h
    rfl
  | cons l rest ih =>
    intro addr ls final bodies h
    obtain ⟨ls', -, ⟨hbody, hrest⟩ | ⟨b, bs, hbody, rfl, hrest⟩⟩ := passOne_cons h
    · rw [instrLines_cons_none rest hbody, ih hrest]
    · rw [instrLines_cons_some rest hbody, List.length_cons, ih hrest]

/-- Binding a line's label keeps the bindings made before: no label is bound twice. -/
theorem Binds.findLabel {l : Line} {addr a : Nat} {ls ls' : Labels} {n : Text} (h : Binds l addr ls ls')
    (hn : findLabel ls n = some a) : findLabel ls' n = some a := by
  cases h with
  | unlabelled => exact hn
  | labelled t _ hnew =>
    rw [findLabel_cons, if_neg, hn]
    rintro rfl
    rw [hnew] at hn
    cases hn

/-- A line's own label is bound to its address. -/
theorem Binds.findLabel_own {l : Line} {addr : Nat} {ls ls' : Labels} {n : Text} (h : Binds l addr ls ls')
    (hn : l.label = some n) : Machine.findLabel ls' n = some addr := by
  cases h with
  | unlabelled hnone => rw [hnone] at hn; cases hn
  | labelled t ht =>
    obtain rfl : t = n := Option.some.inj (ht.symm.trans hn)
    rw [findLabel_cons, if_pos rfl]

/-- Pass one keeps the bindings made before. -/
theorem passOne_findLabel {lines : List Line} {a : Nat} {n : Text} : ∀ {addr : Nat} {ls final : Labels}
    {bodies : List Text}, passOne lines addr ls = .ok (final, bodies) → findLabel ls n = some a →
    findLabel final n = some a := by
  induction lines with
  | nil =>
    intro addr ls final bodies h hn
    cases h
    exact hn
  | cons l rest ih =>
    intro addr ls final bodies h hn
    obtain ⟨ls', hbinds, ⟨-, hrest⟩ | ⟨b, bs, -, -, hrest⟩⟩ := passOne_cons h
    · exact ih hrest (hbinds.findLabel hn)
    · exact ih hrest (hbinds.findLabel hn)

/-- A label is bound to the address pass one starts at and 4 bytes for each instruction line before it. -/
theorem passOne_binds {before after : List Line} {l : Line} {name : Text} (hname : l.label = some name) :
    ∀ {addr : Nat} {ls final : Labels} {bodies : List Text},
      passOne (before ++ l :: after) addr ls = .ok (final, bodies) →
      findLabel final name = some (addr + 4 * instrLines before) := by
  induction before with
  | nil =>
    intro addr ls final bodies h
    obtain ⟨ls', hbinds, ⟨-, hrest⟩ | ⟨b, bs, -, -, hrest⟩⟩ := passOne_cons h
    · exact passOne_findLabel hrest (hbinds.findLabel_own hname)
    · exact passOne_findLabel hrest (hbinds.findLabel_own hname)
  | cons k rest ih =>
    intro addr ls final bodies h
    obtain ⟨ls', -, ⟨hbody, hrest⟩ | ⟨b, bs, hbody, -, hrest⟩⟩ := passOne_cons h
    · rw [ih hrest, instrLines_cons_none rest hbody]
    · rw [ih hrest, instrLines_cons_some rest hbody]
      congr 1
      omega

/-- Settles O55: pass one starts at address 0. -/
theorem labelsBindNextInstruction : Obligations.LabelsBindNextInstruction := by
  intro before after l name ls bodies hname h
  rw [passOne_binds hname h, Nat.zero_add]
  rfl

/-! ### Pass two (R75, R77) -/

/-- Everything pass two does with a line: its word, then the words of the rest. -/
theorem passTwo_cons {ls : Labels} {addr : Nat} {b : Text} {rest : List Text} {ws : List Word}
    (h : passTwo ls addr (b :: rest) = .ok ws) :
    ∃ w ws', lineWord ls addr b = .ok w ∧ passTwo ls (addr + 4) rest = .ok ws' ∧ ws = w :: ws' := by
  rw [passTwo] at h
  split at h
  · cases h
  · cases h
  · rename_i w ws' hw hws
    cases h
    exact ⟨w, ws', hw, hws, rfl⟩

/-- Pass two gives one word per instruction text. -/
theorem passTwo_length {ls : Labels} {bodies : List Text} : ∀ {addr : Nat} {ws : List Word},
    passTwo ls addr bodies = .ok ws → ws.length = bodies.length := by
  induction bodies with
  | nil =>
    intro addr ws h
    cases h
    rfl
  | cons b rest ih =>
    intro addr ws h
    obtain ⟨w, ws', -, hrest, rfl⟩ := passTwo_cons h
    rw [List.length_cons, List.length_cons, ih hrest]

/-- Every word of pass two is that of a line. -/
theorem passTwo_mem {ls : Labels} {bodies : List Text} {w : Word} : ∀ {addr : Nat} {ws : List Word},
    passTwo ls addr bodies = .ok ws → w ∈ ws → ∃ a b, lineWord ls a b = .ok w := by
  induction bodies with
  | nil =>
    intro addr ws h hw
    cases h
    cases hw
  | cons b rest ih =>
    intro addr ws h hw
    obtain ⟨v, ws', hv, hrest, rfl⟩ := passTwo_cons h
    obtain rfl | hw := List.mem_cons.mp hw
    · exact ⟨addr, b, hv⟩
    · exact ih hrest hw

/-- The assembler's words are those of the two passes. -/
theorem assemble_ok {source : Text} {ws : List Word} (h : assemble source = .ok ws) :
    ∃ ls bodies, passOne (sourceLines source) 0 [] = .ok (ls, bodies) ∧ passTwo ls 0 bodies = .ok ws := by
  unfold assemble at h
  split at h
  · cases h
  · rename_i ls bodies hone
    exact ⟨ls, bodies, hone, h⟩

/-- Settles O53: pass one keeps one text per instruction line, pass two gives one word per text. -/
theorem assemblerEmitsOneWordPerLine : Obligations.AssemblerEmitsOneWordPerLine := by
  intro source ws h
  obtain ⟨ls, bodies, hone, htwo⟩ := assemble_ok h
  exact (passTwo_length htwo).trans (passOne_length hone)

/-- The operands of a `lw` or `sw` line give an instruction with an immediate in range. -/
theorem parseAccess_some {mk : Reg → Reg → Word → Instr} {args : List Text} {i : Instr}
    (h : parseAccess mk args = .ok (some i)) : ∃ rt rs v, fitsSigned16 v = true ∧ i = mk rt rs v := by
  unfold parseAccess at h
  split at h
  · split at h
    · obtain ⟨v, hv, rfl⟩ := withImmediate_some h
      exact ⟨_, _, v, immediate16_fits hv, rfl⟩
    · cases h
  · cases h

/-- The operands of a line give a well-formed instruction (R74). -/
theorem parseOperands_wellFormed {ls : Labels} {addr : Nat} {op : Op} {args : List Text} {i : Instr}
    (h : parseOperands ls addr op args = .ok (some i)) : WellFormed i := by
  unfold parseOperands at h
  split at h
  case h_1 | h_2 => cases h; rfl
  case h_3 => obtain ⟨v, hv, rfl⟩ := withImmediate_some h; exact immediate16_fits hv
  case h_4 => obtain ⟨v, hv, rfl⟩ := withImmediate_some h; exact shiftAmount_fits hv
  case h_5 | h_6 => obtain ⟨rt, rs, v, hv, rfl⟩ := parseAccess_some h; exact hv
  case h_7 => obtain ⟨v, hv, rfl⟩ := withTarget_some h; exact branchOffset_fits hv
  case h_8 => obtain ⟨v, hv, rfl⟩ := withTarget_some h; exact jumpAddress_fits hv
  case h_9 => cases h

/-- A line gives a well-formed instruction, if any. -/
theorem parseInstr_wellFormed {ls : Labels} {addr : Nat} {body : Text} {i : Instr}
    (h : parseInstr ls addr body = .ok (some i)) : WellFormed i := by
  unfold parseInstr at h
  split at h
  · cases h
  · split at h
    · exact parseOperands_wellFormed h
    · cases h

/-- Settles O54: every word is that of a line, which holds an instruction or is a decode failure. -/
theorem assembledWordsAreEncodings : Obligations.AssembledWordsAreEncodings := by
  refine ⟨decode_of_unselected (by decide), fun source ws h w hw => ?_⟩
  obtain ⟨ls, bodies, -, htwo⟩ := assemble_ok h
  obtain ⟨addr, body, hline⟩ := passTwo_mem htwo hw
  unfold lineWord at hline
  split at hline
  · cases hline
  · cases hline
    exact .inl rfl
  · rename_i i hi
    cases hline
    exact .inr ⟨i, parseInstr_wellFormed hi, rfl⟩

/-! ### Targets and literals (R70 to R74) -/

/-- A word made of an integer in its signed range has that value. -/
theorem toInt_ofInt_of_range {n : Int} (h : -2 ^ 31 ≤ n ∧ n < 2 ^ 31) : (BitVec.ofInt 32 n).toInt = n := by
  rw [BitVec.toInt_ofInt, Int.bmod_eq_of_le (by omega) (by omega)]

/-- A word made of a nonnegative integer in its range has that value. -/
theorem toNat_ofInt_of_range {n : Int} (h : 0 ≤ n ∧ n < 2 ^ 32) : ((BitVec.ofInt 32 n).toNat : Int) = n := by
  rw [BitVec.toNat_ofInt]
  omega

/-- The offset formula of R70 inverts the branch target of R100. -/
theorem branchTarget_ofInt {addr lab : Nat} (hlab : lab % 4 = 0) (haddr : addr % 4 = 0) :
    branchTarget (BitVec.ofNat 32 addr) (BitVec.ofInt 32 (((lab : Int) - ((addr : Int) + 4)) / 4)) =
      BitVec.ofNat 32 lab := by
  have hsum : (lab : Int) = addr + 4 + ((lab : Int) - ((addr : Int) + 4)) / 4 * 4 := by omega
  generalize ((lab : Int) - ((addr : Int) + 4)) / 4 = n at hsum ⊢
  rw [branchTarget_eq_mul, ← BitVec.ofInt_natCast 32 lab, hsum, BitVec.ofInt_add, BitVec.ofInt_add, BitVec.ofInt_mul,
    BitVec.ofInt_natCast]
  rfl

/-- A jump address that was resolved is the number named (R71). -/
theorem jumpAddress_toNat {ls : Labels} {t : Text} {v : Word} (h : jumpAddress ls t = .ok v) :
    (v.toNat : Int) = jumpNumber ls t := by
  unfold jumpAddress at h
  split at h
  · cases h
    exact toNat_ofInt_of_range (by omega)
  · cases h

/-- Settles O56: a label comes first; without label and number the target is 0. -/
theorem targetsResolve : Obligations.TargetsResolve := by
  refine ⟨fun ls name lab addr off hfind hlab haddr h => ?_, fun ls name lab v hfind h => ?_,
    fun ls name addr hfind hparse => ?_⟩
  · simp only [branchOffset, hfind] at h
    split at h
    · cases h
      exact branchTarget_ofInt hlab haddr
    · cases h
  · have hnumber := jumpAddress_toNat h
    simp only [jumpNumber, hfind] at hnumber
    exact_mod_cast hnumber
  · simp [branchOffset, jumpAddress, jumpNumber, hfind, hparse]

section Literals

variable {t : Text} {n : Int}

theorem immediate16_of_parseInt (h : parseInt t = some n) : immediate16 t =
    if -32768 ≤ n ∧ n ≤ 32767 then .ok (some (BitVec.ofInt 32 n)) else .error .literalOutOfRange := by
  simp only [immediate16, h]

theorem shiftAmount_of_parseInt (h : parseInt t = some n) : shiftAmount t =
    if 0 ≤ n ∧ n ≤ 31 then .ok (some (BitVec.ofInt 32 n)) else .error .literalOutOfRange := by
  simp only [shiftAmount, h]

theorem branchOffset_of_parseInt {ls : Labels} (addr : Nat) (hfind : findLabel ls t = none)
    (h : parseInt t = some n) : branchOffset ls addr t =
    if -32768 ≤ n ∧ n ≤ 32767 then .ok (BitVec.ofInt 32 n) else .error .literalOutOfRange := by
  simp only [branchOffset, hfind, h]

theorem jumpAddress_of_parseInt {ls : Labels} (hfind : findLabel ls t = none) (h : parseInt t = some n) :
    jumpAddress ls t =
    if n % 4 = 0 ∧ 0 ≤ n ∧ n ≤ 2 ^ 28 - 4 then .ok (BitVec.ofInt 32 n) else .error .badJumpAddress := by
  have hnumber : jumpNumber ls t = n := by simp only [jumpNumber, hfind, h, Option.getD_some]
  rw [jumpAddress, hnumber]

end Literals

/-- Settles O58: each literal is tested for its range, and a word holds every integer of the four ranges. -/
theorem literalsAreRangeChecked : Obligations.LiteralsAreRangeChecked := by
  intro t n hparse
  rw [immediate16_of_parseInt hparse, shiftAmount_of_parseInt hparse]
  refine ⟨fun hr => ⟨_, if_pos hr, toInt_ofInt_of_range (by omega)⟩, fun hr => if_neg (by omega),
    fun hr => ⟨_, if_pos hr, toInt_ofInt_of_range (by omega)⟩, fun hr => if_neg (by omega), fun ls addr hfind => ?_⟩
  rw [branchOffset_of_parseInt addr hfind hparse, jumpAddress_of_parseInt hfind hparse]
  exact ⟨fun hr => ⟨_, if_pos hr, toInt_ofInt_of_range (by omega)⟩, fun hr => if_neg (by omega),
    fun hr => ⟨_, if_pos hr, toNat_ofInt_of_range (by omega)⟩, fun hr => if_neg (by omega)⟩

/-! ### The two forms of `lw` and `sw` (R69) -/

/-- Up to the first `c` and from it on, where `c` stands after a text without it. -/
theorem takeWhile_dropWhile_append {c : Char} {before : Text} (after : Text) (h : c ∉ before) :
    (before ++ c :: after).takeWhile (· != c) = before ∧ (before ++ c :: after).dropWhile (· != c) = c :: after := by
  have hbefore : ∀ x ∈ before, (x != c) = true := fun x hx => by
    rw [bne_iff_ne]
    rintro rfl
    exact h hx
  rw [List.takeWhile_append_of_pos hbefore, List.dropWhile_append_of_pos hbefore]
  simp

/-- An offset without `(`, a `(`, a nonempty base without `)` and a `)` split into offset and base. -/
theorem splitParen_append {imm rs : Text} (himm : '(' ∉ imm) (hrs : ')' ∉ rs) (hne : rs ≠ []) :
    splitParen (imm ++ '(' :: rs ++ [')']) = some (imm, rs) := by
  obtain ⟨hoff, hrest⟩ := takeWhile_dropWhile_append (rs ++ [')']) himm
  obtain ⟨hbase, hend⟩ := takeWhile_dropWhile_append [] hrs
  rw [List.append_assoc, List.cons_append]
  simp [splitParen, hoff, hrest, hbase, hend, hne]

/-- Both forms of the operands of a `lw` or `sw` give the instruction with their register, base and offset. -/
theorem parseAccess_forms (mk : Reg → Reg → Word → Instr) (rt : Text) {rs imm : Text} {v : Word} (himm : '(' ∉ imm)
    (hrs : ')' ∉ rs) (hne : rs ≠ []) (hv : immediate16 imm = .ok (some v)) :
    parseAccess mk [rt, imm ++ '(' :: rs ++ [')']] = .ok (some (mk (parseReg rt) (parseReg rs) v)) ∧
    parseAccess mk [rt, rs, imm] = .ok (some (mk (parseReg rt) (parseReg rs) v)) := by
  rw [parseAccess, parseAddress, splitParen_append himm hrs hne, parseAccess, parseAddress]
  simp only [hv, withImmediate, and_self]

/-- Settles O57: the operands of `lw` and `sw` are read alike. -/
theorem accessFormsAgree : Obligations.AccessFormsAgree := by
  intro ls addr rt rs imm v himm hrs hne hv
  obtain ⟨hlw, hlw'⟩ := parseAccess_forms .lw rt himm hrs hne hv
  obtain ⟨hsw, hsw'⟩ := parseAccess_forms .sw rt himm hrs hne hv
  exact ⟨hlw, hlw', hsw, hsw'⟩

end Sys2Proof.Machine
